-- ==== Sys2Proof/Word.lean ====
section
/-! DEFINITION. The words of the machine: bytes, 16-bit words, 12-bit addresses, nibbles, register indices.
All of them are unsigned (rule R6: "the machine has no signed quantity anywhere"). -/

namespace Sys2Proof

/-- An 8-bit value: a general register, a timer, a memory byte, an immediate `kk` (rules R10, R19, R16, R8). -/
abbrev Byte := BitVec 8

/-- A 16-bit value: `I`, `pc`, a stack entry, an instruction word (rules R12, R13, R14, R60). -/
abbrev Word := BitVec 16

/-- The 12-bit `addr` field of format NNN (rules R8, R61). -/
abbrev Addr := BitVec 12

/-- A 4-bit quantity (rule R9). -/
abbrev Nibble := BitVec 4

/-- A register index `x` or `y`: "a register index can never be out of range" (rule R62). -/
abbrev Reg := Fin 16

/-- The flag register is register 15 (rules R4, R11). -/
abbrev flagReg : Reg := 15

/-- `zext_16(v)` of a 12-bit address (rules R7, R62). -/
def zextAddr (a : Addr) : Word := a.setWidth 16

/-- `zext_16(v)` of a byte (rule R7). -/
def zextByte (b : Byte) : Word := b.setWidth 16

end Sys2Proof
end

