-- ==== Sys2Proof/Syntax.lean ====
section
/-! DEFINITION. The instructions: one constructor for each row of spec/opcode_table.json, in the table's order
(rule R64). Operands are named as in rule R8. -/

namespace Sys2Proof

/-- The 34 instructions of rule R64. The operand types carry every bound an operand has (rule R62). -/
inductive Instr where
  /-- 00E0, clear-screen (rule R120). -/
  | cls
  /-- 00EE, return (rule R81). -/
  | ret
  /-- 1nnn, jump addr (rule R82). -/
  | jp (addr : Addr)
  /-- 2nnn, call addr (rule R83). -/
  | call (addr : Addr)
  /-- 3xkk, skip-eq-imm (rule R85). -/
  | seImm (x : Reg) (kk : Byte)
  /-- 4xkk, skip-ne-imm (rule R86). -/
  | sneImm (x : Reg) (kk : Byte)
  /-- 5xy0, skip-eq-reg (rule R87). -/
  | seReg (x y : Reg)
  /-- 6xkk, load-imm (rule R100). -/
  | ldImm (x : Reg) (kk : Byte)
  /-- 7xkk, add-imm (rule R101). -/
  | addImm (x : Reg) (kk : Byte)
  /-- 8xy0, reg-to-reg move (rule R102). -/
  | ldReg (x y : Reg)
  /-- 8xy1, OR (rule R103). -/
  | or (x y : Reg)
  /-- 8xy2, AND (rule R104). -/
  | and (x y : Reg)
  /-- 8xy3, XOR (rule R105). -/
  | xor (x y : Reg)
  /-- 8xy4, add-reg (rule R106). -/
  | addReg (x y : Reg)
  /-- 8xy5, sub-reg (rule R107). -/
  | sub (x y : Reg)
  /-- 8xy6, shift-right (rule R109); `y` is decoded and ignored (rule R67). -/
  | shr (x y : Reg)
  /-- 8xy7, subn-reg (rule R108). -/
  | subn (x y : Reg)
  /-- 8xyE, shift-left (rule R110); `y` is decoded and ignored (rule R67). -/
  | shl (x y : Reg)
  /-- 9xy0, skip-ne-reg (rule R88). -/
  | sneReg (x y : Reg)
  /-- Annn, load-index (rule R140; supplied by the spec's decision D3). -/
  | ldI (addr : Addr)
  /-- Bnnn, jump-with-offset (rule R84). -/
  | jpV0 (addr : Addr)
  /-- Cxkk, random-and (rule R111). -/
  | rnd (x : Reg) (kk : Byte)
  /-- Dxyn, draw-sprite (rule R121). -/
  | drw (x y : Reg) (n : Fin 16)
  /-- Ex9E, skip-if-key-pressed (rule R130). -/
  | skp (x : Reg)
  /-- ExA1, skip-if-key-not-pressed (rule R131). -/
  | sknp (x : Reg)
  /-- Fx07, read-delay-timer (rule R133). -/
  | ldVxDT (x : Reg)
  /-- Fx0A, wait-for-key (rule R132). -/
  | ldVxK (x : Reg)
  /-- Fx15, set-delay-timer (rule R134). -/
  | ldDTVx (x : Reg)
  /-- Fx18, set-sound-timer (rule R135). -/
  | ldSTVx (x : Reg)
  /-- Fx1E, add-to-index (rule R141). -/
  | addI (x : Reg)
  /-- Fx29, font-char-address (rule R142). -/
  | ldF (x : Reg)
  /-- Fx33, store-bcd (rule R143). -/
  | ldB (x : Reg)
  /-- Fx55, store-registers (rule R144). -/
  | ldIVx (x : Reg)
  /-- Fx65, load-registers (rule R145). -/
  | ldVxI (x : Reg)
  deriving DecidableEq, Repr

end Sys2Proof
end

