-- ==== Sys2Proof/Decode.lean ====
section
/-! DEFINITION. Decoding and encoding (rules R60 to R68), the opcode map as data (rule R64), and how a word lies in
memory (rule R42). -/

namespace Sys2Proof

/-- Why bytes are no instruction. -/
inductive Reject where
  /-- The word matches no row of rule R64: it is unrecognised (rule R66). Safe: the step reports it. -/
  | unknownOpcode (op : Word)
  /-- Fewer than the 2 bytes every instruction has (rule R60). Safe: no instruction is made up. -/
  | truncated
  deriving DecidableEq, Repr

/-- `op[15:12]` (rule R6). -/
def n1 (op : Word) : Nibble := op.extractLsb' 12 4
/-- `op[11:8]` (rule R6). -/
def n2 (op : Word) : Nibble := op.extractLsb' 8 4
/-- `op[7:4]` (rule R6). -/
def n3 (op : Word) : Nibble := op.extractLsb' 4 4
/-- `op[3:0]` (rule R6). -/
def n4 (op : Word) : Nibble := op.extractLsb' 0 4
/-- `op[7:0]` (rule R8). -/
def opKK (op : Word) : Byte := op.extractLsb' 0 8
/-- `op[11:0]` (rule R8). -/
def opAddr (op : Word) : Addr := op.extractLsb' 0 12

/-- A nibble used directly as a register index or as a count (rule R62). -/
def nibFin (n : Nibble) : Fin 16 := ⟨n.toNat, n.isLt⟩
/-- `x = n2` (rule R8). -/
def opX (op : Word) : Reg := nibFin (n2 op)
/-- `y = n3` (rule R8). -/
def opY (op : Word) : Reg := nibFin (n3 op)
/-- `n = n4` (rule R8). -/
def opN (op : Word) : Fin 16 := nibFin (n4 op)

/-- The rows of the opcode map, in the table's order (rule R64). -/
inductive Op where
  | cls | ret | jp | call | seImm | sneImm | seReg | ldImm | addImm
  | ldReg | or | and | xor | addReg | sub | shr | subn | shl
  | sneReg | ldI | jpV0 | rnd | drw | skp | sknp | ldVxDT | ldVxK
  | ldDTVx | ldSTVx | addI | ldF | ldB | ldIVx | ldVxI
  deriving DecidableEq, Repr

/-- One row of the opcode map of rule R64. -/
structure OpcodeRow where
  mnemonic : String
  mask : Word
  value : Word
  deriving DecidableEq, Repr

/-- THE opcode map of rule R64, with the mnemonics of spec/opcode_table.json: "A model keeps the map as one table so that
a correction touches one place" (rule R65). The decoder takes every mask and match value from it, and the encoder every
opcode nibble. -/
def opRow : Op → OpcodeRow
  | .cls => ⟨"CLS", 0xFFFF, 0x00E0⟩
  | .ret => ⟨"RET", 0xFFFF, 0x00EE⟩
  | .jp => ⟨"JP_addr", 0xF000, 0x1000⟩
  | .call => ⟨"CALL_addr", 0xF000, 0x2000⟩
  | .seImm => ⟨"SE_Vx__kk", 0xF000, 0x3000⟩
  | .sneImm => ⟨"SNE_Vx__kk", 0xF000, 0x4000⟩
  | .seReg => ⟨"SE_Vx__Vy", 0xF00F, 0x5000⟩
  | .ldImm => ⟨"LD_Vx__kk", 0xF000, 0x6000⟩
  | .addImm => ⟨"ADD_Vx__kk", 0xF000, 0x7000⟩
  | .ldReg => ⟨"LD_Vx__Vy", 0xF00F, 0x8000⟩
  | .or => ⟨"OR_Vx__Vy", 0xF00F, 0x8001⟩
  | .and => ⟨"AND_Vx__Vy", 0xF00F, 0x8002⟩
  | .xor => ⟨"XOR_Vx__Vy", 0xF00F, 0x8003⟩
  | .addReg => ⟨"ADD_Vx__Vy", 0xF00F, 0x8004⟩
  | .sub => ⟨"SUB_Vx__Vy", 0xF00F, 0x8005⟩
  | .shr => ⟨"SHR_Vx", 0xF00F, 0x8006⟩
  | .subn => ⟨"SUBN_Vx__Vy", 0xF00F, 0x8007⟩
  | .shl => ⟨"SHL_Vx", 0xF00F, 0x800E⟩
  | .sneReg => ⟨"SNE_Vx__Vy", 0xF00F, 0x9000⟩
  | .ldI => ⟨"LD_I__addr", 0xF000, 0xA000⟩
  | .jpV0 => ⟨"JP_V0__addr", 0xF000, 0xB000⟩
  | .rnd => ⟨"RND_Vx__kk", 0xF000, 0xC000⟩
  | .drw => ⟨"DRW_Vx__Vy__n", 0xF000, 0xD000⟩
  | .skp => ⟨"SKP_Vx", 0xF0FF, 0xE09E⟩
  | .sknp => ⟨"SKNP_Vx", 0xF0FF, 0xE0A1⟩
  | .ldVxDT => ⟨"LD_Vx__DT", 0xF0FF, 0xF007⟩
  | .ldVxK => ⟨"LD_Vx__K", 0xF0FF, 0xF00A⟩
  | .ldDTVx => ⟨"LD_DT__Vx", 0xF0FF, 0xF015⟩
  | .ldSTVx => ⟨"LD_ST__Vx", 0xF0FF, 0xF018⟩
  | .addI => ⟨"ADD_I__Vx", 0xF0FF, 0xF01E⟩
  | .ldF => ⟨"LD_F__Vx", 0xF0FF, 0xF029⟩
  | .ldB => ⟨"LD_B__Vx", 0xF0FF, 0xF033⟩
  | .ldIVx => ⟨"LD__I___Vx", 0xF0FF, 0xF055⟩
  | .ldVxI => ⟨"LD_Vx___I", 0xF0FF, 0xF065⟩

/-- The rows in the order the decoder tests them, the table's; since no two overlap "a decoder may test the rows in any
order" (rule R63). -/
def allOps : List Op :=
  [.cls, .ret, .jp, .call, .seImm, .sneImm, .seReg,
   .ldImm, .addImm, .ldReg, .or, .and, .xor, .addReg,
   .sub, .shr, .subn, .shl, .sneReg, .ldI, .jpV0,
   .rnd, .drw, .skp, .sknp, .ldVxDT, .ldVxK, .ldDTVx,
   .ldSTVx, .addI, .ldF, .ldB, .ldIVx, .ldVxI]

/-- The opcode map as the list of its rows (rule R64). -/
def opcodeMap : List OpcodeRow := allOps.map opRow

/-- `op & mask = match` (rule R64). -/
def rowMatches (r : OpcodeRow) (op : Word) : Bool := op &&& r.mask == r.value

/-- The row that selects a word; none for an unrecognised word (rules R63, R66). -/
def findOp (op : Word) : Option Op := allOps.find? fun o => rowMatches (opRow o) op

/-- The instruction of a row, with the operands its format takes from the word (rules R8, R61). -/
def withOperands (w : Word) : Op → Instr
  | .cls => .cls
  | .ret => .ret
  | .jp => .jp (opAddr w)
  | .call => .call (opAddr w)
  | .seImm => .seImm (opX w) (opKK w)
  | .sneImm => .sneImm (opX w) (opKK w)
  | .seReg => .seReg (opX w) (opY w)
  | .ldImm => .ldImm (opX w) (opKK w)
  | .addImm => .addImm (opX w) (opKK w)
  | .ldReg => .ldReg (opX w) (opY w)
  | .or => .or (opX w) (opY w)
  | .and => .and (opX w) (opY w)
  | .xor => .xor (opX w) (opY w)
  | .addReg => .addReg (opX w) (opY w)
  | .sub => .sub (opX w) (opY w)
  | .shr => .shr (opX w) (opY w)
  | .subn => .subn (opX w) (opY w)
  | .shl => .shl (opX w) (opY w)
  | .sneReg => .sneReg (opX w) (opY w)
  | .ldI => .ldI (opAddr w)
  | .jpV0 => .jpV0 (opAddr w)
  | .rnd => .rnd (opX w) (opKK w)
  | .drw => .drw (opX w) (opY w) (opN w)
  | .skp => .skp (opX w)
  | .sknp => .sknp (opX w)
  | .ldVxDT => .ldVxDT (opX w)
  | .ldVxK => .ldVxK (opX w)
  | .ldDTVx => .ldDTVx (opX w)
  | .ldSTVx => .ldSTVx (opX w)
  | .addI => .addI (opX w)
  | .ldF => .ldF (opX w)
  | .ldB => .ldB (opX w)
  | .ldIVx => .ldIVx (opX w)
  | .ldVxI => .ldVxI (opX w)

/-- Dispatch: the row that selects the word, with its operands (rules R63, R64). -/
def select (op : Word) : Option Instr := (findOp op).map (withOperands op)

/-- Decoding one 16-bit word: total, an unrecognised word rejected by name (rules R63, R66, R68). -/
def decodeWord (op : Word) : Except Reject Instr :=
  match select op with
  | some i => .ok i
  | none => .error (.unknownOpcode op)

/-- `op = hi ++ lo`: the byte at the lower address is the most significant (rule R42). -/
def wordOfBytes (hi lo : Byte) : Word := hi ++ lo
/-- The byte of a word that lies at the lower address (rule R42). -/
def hiByte (op : Word) : Byte := op.extractLsb' 8 8
/-- The byte of a word that lies at the higher address (rule R42). -/
def loByte (op : Word) : Byte := op.extractLsb' 0 8

/-- Decoding the instruction at the head of any bytes, with the bytes left over (rules R42, R60). -/
def decodeBytes : List Byte → Except Reject (Instr × List Byte)
  | hi :: lo :: rest =>
    match decodeWord (wordOfBytes hi lo) with
    | .ok i => .ok (i, rest)
    | .error r => .error r
  | _ => .error .truncated

/-- A register index or count as the nibble that encodes it (rule R62). -/
def finNib (k : Fin 16) : Nibble := BitVec.ofNat 4 k.val

/-- The row of the opcode map an instruction comes from. -/
def opOf : Instr → Op
  | .cls => .cls
  | .ret => .ret
  | .jp _ => .jp
  | .call _ => .call
  | .seImm _ _ => .seImm
  | .sneImm _ _ => .sneImm
  | .seReg _ _ => .seReg
  | .ldImm _ _ => .ldImm
  | .addImm _ _ => .addImm
  | .ldReg _ _ => .ldReg
  | .or _ _ => .or
  | .and _ _ => .and
  | .xor _ _ => .xor
  | .addReg _ _ => .addReg
  | .sub _ _ => .sub
  | .shr _ _ => .shr
  | .subn _ _ => .subn
  | .shl _ _ => .shl
  | .sneReg _ _ => .sneReg
  | .ldI _ => .ldI
  | .jpV0 _ => .jpV0
  | .rnd _ _ => .rnd
  | .drw _ _ _ => .drw
  | .skp _ => .skp
  | .sknp _ => .sknp
  | .ldVxDT _ => .ldVxDT
  | .ldVxK _ => .ldVxK
  | .ldDTVx _ => .ldDTVx
  | .ldSTVx _ => .ldSTVx
  | .addI _ => .addI
  | .ldF _ => .ldF
  | .ldB _ => .ldB
  | .ldIVx _ => .ldIVx
  | .ldVxI _ => .ldVxI

/-- The mnemonic of an instruction's row. -/
def mnemonic (i : Instr) : String := (opRow (opOf i)).mnemonic

/-- Format NNN: the major opcode of `v` and an address (rule R61). -/
def encNNN (v : Word) (addr : Addr) : Word := n1 v ++ addr
/-- Format XKK: the major opcode of `v`, a register and an immediate (rule R61). -/
def encXKK (v : Word) (x : Reg) (kk : Byte) : Word := n1 v ++ finNib x ++ kk
/-- Format XY: the major and minor opcode of `v` and two registers (rule R61). -/
def encXY (v : Word) (x y : Reg) : Word := n1 v ++ finNib x ++ finNib y ++ n4 v
/-- Format XYN: the major opcode of `v`, two registers and a count (rule R61). -/
def encXYN (v : Word) (x y n : Fin 16) : Word := n1 v ++ finNib x ++ finNib y ++ finNib n
/-- Format NIB of the E and F groups: the major opcode of `v`, a register and the minor opcode `op[7:0]` of `v`
(rule R61). -/
def encX (v : Word) (x : Reg) : Word := n1 v ++ finNib x ++ opKK v

/-- The word of an instruction whose row has match value `v`: the operands put where the row's format has them
(rules R61, R64). -/
def encodeWith (v : Word) : Instr → Word
  | .cls | .ret => v
  | .jp addr | .call addr | .ldI addr | .jpV0 addr => encNNN v addr
  | .seImm x kk | .sneImm x kk | .ldImm x kk | .addImm x kk | .rnd x kk => encXKK v x kk
  | .seReg x y | .sneReg x y | .ldReg x y | .or x y | .and x y | .xor x y | .addReg x y | .sub x y | .shr x y
  | .subn x y | .shl x y => encXY v x y
  | .drw x y n => encXYN v x y n
  | .skp x | .sknp x | .ldVxDT x | .ldVxK x | .ldDTVx x | .ldSTVx x | .addI x | .ldF x | .ldB x | .ldIVx x
  | .ldVxI x => encX v x

/-- The word of an instruction, from the match value of its row of the opcode map (rules R61, R64, R65). -/
def encode (i : Instr) : Word := encodeWith (opRow (opOf i)).value i

/-- The two bytes of an instruction as memory holds them, high byte first (rules R42, R60). -/
def encodeBytes (i : Instr) : List Byte := [hiByte (encode i), loByte (encode i)]

/-- The instruction the decoder reads from a table word of `nbits` bits: the one 16-bit word of an instruction, laid
out as memory holds it, high byte first (rule R42). -/
def decodeTableWord (nbits w : Nat) : Option Instr :=
  let op : Word := BitVec.ofNat 16 (w % 2 ^ nbits)
  match decodeBytes [hiByte op, loByte op] with
  | .ok (i, _) => some i
  | .error _ => none

end Sys2Proof
end

