-- ==== Sys2Proof/Config.lean ====
section
/-! DEFINITION. The parameters of rule R5 and the values the spec leaves open.
A parameter to which the spec gives a value has that value here; a parameter the spec leaves OPEN, the random draw
and the host's keypad writes are constants with no body, so nothing can be proved that depends on what they are. -/

namespace Sys2Proof

/-- `FB_W`, the framebuffer's width in cells: 64 (rule R5; the spec's decision D5). -/
abbrev Config.fbW : Nat := 64

/-- `FB_H`, the framebuffer's height in cells: 32 (rule R5; the spec's decision D5). -/
abbrev Config.fbH : Nat := 32

/-- The number of framebuffer cells, `FB_W × FB_H` (rule R22). -/
abbrev Config.fbCells : Nat := Config.fbW * Config.fbH

/-- `MEM_SIZE`, 4096 bytes (rules R4, R16). -/
abbrev Config.memSize : Nat := 4096

/-- `FONT_BASE`, 0x050 (rules R4, R17). -/
abbrev Config.fontBase : Nat := 0x050

/-- `FONT_BYTES`, 80 bytes: 16 glyphs of 5 (rules R4, R17). -/
abbrev Config.fontBytes : Nat := 80

/-- `ROM_BASE`, 0x200 (rules R4, R45). -/
abbrev Config.romBase : Nat := 0x200

/-- `PC_RESET`, 0x0200 (rules R4, R13). -/
abbrev Config.pcReset : Word := 0x0200

/-- `STACK_DEPTH`, 16 entries (rules R4, R14). -/
abbrev Config.stackDepth : Nat := 16

/-- The 80 bytes `FONT[0..79]` of rule R18, one row of the rule's table a line (the spec's decision D10). -/
def Config.font : List Byte :=
  [0xF0, 0x90, 0x90, 0x90, 0xF0,
   0x20, 0x60, 0x20, 0x20, 0x70,
   0xF0, 0x10, 0xF0, 0x80, 0xF0,
   0xF0, 0x10, 0xF0, 0x10, 0xF0] ++
  [0x90, 0x90, 0xF0, 0x10, 0x10,
   0xF0, 0x80, 0xF0, 0x10, 0xF0,
   0xF0, 0x80, 0xF0, 0x90, 0xF0,
   0xF0, 0x10, 0x20, 0x40, 0x40] ++
  [0xF0, 0x90, 0xF0, 0x90, 0xF0,
   0xF0, 0x90, 0xF0, 0x10, 0xF0,
   0xF0, 0x90, 0xF0, 0x90, 0x90,
   0xE0, 0x90, 0xE0, 0x90, 0xE0] ++
  [0xF0, 0x80, 0x80, 0x80, 0xF0,
   0xE0, 0x90, 0x90, 0x90, 0xE0,
   0xF0, 0x80, 0xF0, 0x80, 0xF0,
   0xF0, 0x80, 0xF0, 0x80, 0x80]

/-- `BATCH_SIZE` less one: the spec leaves `BATCH_SIZE` OPEN, "any integer ≥ 1" (rule R5, decision D9).
Free: assumption 3. -/
opaque Config.batchSizePred : Nat

/-- `BATCH_SIZE`: the steps of one cycle operation (rules R5, R187). Free but for being at least 1: assumption 3. -/
def Config.batchSize : Nat := Config.batchSizePred + 1

/-- `CELL_BITS` less one: the spec leaves `CELL_BITS` OPEN, "any integer ≥ 1" (rule R5, decision D6).
Free: assumption 4. -/
opaque Config.cellBitsPred : Nat

/-- `CELL_BITS`: the width of a cell on the framebuffer read interface (rules R5, R168). Free but for being at
least 1: assumption 4. -/
def Config.cellBits : Nat := Config.cellBitsPred + 1

/-- The 8-bit draws of random-and, one for each index (rules R25, R112; decision D21). Free: assumption 1. -/
opaque Config.rnd : Nat → Byte

/-- What the host writes to the keypad between two cycle operations: for each such gap no write (`none`) or a
pattern of 16 levels (rules R167, R188). Free: assumption 2. -/
opaque Config.keypadWrite : Nat → Option (BitVec 16)

end Sys2Proof
end

