-- ==== Sys2Proof/Machine/State.lean ====
section
/-! DEFINITION. The machine's state as plain data (10_state.md), the report output, the reasons a step could stop, and
the state after reset (rule R27). -/

namespace Sys2Proof.Machine

/-- Why the machine would stop with a fault. THERE IS NO SUCH REASON, so the type has no constructor and nobody
raises one: "No word stops, hangs or resets the engine by its encoding alone" (rule R68), the step "is total: it is
defined for every state and always yields a next state and a report" (rule R186), and a guarded error is reported while
execution goes on (rule R151). Safe: no behaviour of the hardware is cut off. -/
inductive Fault where
  deriving DecidableEq, Repr

/-- Why an operation has no meaning in the model. -/
inductive Refusal where
  /-- `exec`'s arm for an instruction that has no meaning yet; no arm of `exec` answers it. Safe. -/
  | notModelled (mnemonic : String)
  /-- Raised by `hostLoadRom`: the image is longer than 3584 bytes, so "the load [is] refused as a whole"
  (rule R185, U16). Safe: no run exists for such an image. -/
  | romTooLarge (len : Nat)
  /-- Raised by `hostLoadRom` once a cycle operation has ended: the ROM load is "after reset, before the first
  cycle" (rule R166), and a host that breaks this "is outside the specification" (rule R169). Safe. -/
  | loadAfterStart
  /-- Raised by `hostLoadRom` when a ROM is loaded already: a run is "reset; one ROM load" and then rounds (rule R188).
  Safe. -/
  | romAlreadyLoaded
  /-- Raised by the cycle operation when no ROM load has succeeded since reset: "the core requires only that no cycle is
  invoked unless a load succeeded" (rule R184, and rule R166). Safe. -/
  | noRomLoaded
  /-- Raised by every host operation, the cycle operation among them, while a cycle is in progress: a host that acts
  inside a cycle or re-enters it "is outside the specification" (rule R169). Safe. -/
  | hostInsideCycle
  deriving DecidableEq, Repr

/-- The report a step drives, with the information it carries (rule R152). `noError` is the rule's `None`. -/
inductive Report where
  | noError
  | unknownOpcode (op : Word)
  | stackOverflow
  | stackUnderflow
  | memRange (addr : Nat)
  | fontRange (v : Byte)
  | keyRange (v : Byte)
  deriving DecidableEq, Repr

/-- A step's report: the error and "the address `a` the step fetched from" (rule R152). -/
structure StepReport where
  error : Report
  fetchedFrom : Word
  deriving DecidableEq, Repr

/-- Memory as the list of the bytes that differ from the reset contents, addresses strictly rising (rule R16). -/
abbrev Memory := List Host.Cell

/-- The complete state of 10_state.md, and after it the model's own fields. -/
structure State where
  /-- `V[0]` to `V[15]` (rule R10). -/
  v : Vector Byte 16
  /-- The address register `I` (rule R12). -/
  i : Word
  /-- The program counter (rule R13). -/
  pc : Word
  /-- The stack pointer, "an integer in 0 to 16 (17 values)" (rule R15). -/
  sp : Fin 17
  /-- `STK[0]` to `STK[15]` (rule R14). -/
  stk : Vector Word 16
  /-- `MEM[0]` to `MEM[4095]` (rule R16). -/
  mem : Memory
  /-- The delay timer `DT` (rule R19). -/
  dt : Byte
  /-- The sound timer `ST` (rule R20). -/
  st : Byte
  /-- The keypad input register: bit `k` is slot `KEY[k]`, 1 = pressed (rules R21, R167). -/
  key : BitVec 16
  /-- The framebuffer, row by row from the top: bit `px` of row `py` is the cell of column `px`, row `py` (rule R22). -/
  fb : Vector (BitVec Config.fbW) Config.fbH
  /-- The model's own field: the report output of the last step; an output, read by no instruction
  (rules R24, R152; assumption 5). -/
  report : StepReport
  /-- The model's own field: how many steps of the cycle operation in progress have been made; 0 between two cycle
  operations (rule R187; assumption 6). -/
  stepsDone : Nat
  /-- The model's own field: how many cycle operations have ended since reset (rule R188; assumption 6). -/
  cycles : Nat
  /-- The model's own field: the index of the next random draw (rule R112; assumption 1). -/
  draws : Nat
  /-- The model's own field: the index of the next gap in which the host may write the keypad (rule R167;
  assumption 2). -/
  keyWrites : Nat
  /-- The model's own field: a ROM load has succeeded since reset; read by the host's operations, by no step
  (rules R166, R184, R188; assumption 16). -/
  romLoaded : Bool
  deriving DecidableEq, Repr

/-- The state right after reset (rules R27, R180, R181). Memory lists nothing: every byte holds its reset content.
The last six fields are the model's own: assumptions 1, 2, 5, 6, 16. -/
def State.reset : State where
  v := Vector.replicate 16 0
  i := 0
  pc := Config.pcReset
  sp := 0
  stk := Vector.replicate 16 0
  mem := []
  dt := 0
  st := 0
  key := 0
  fb := Vector.replicate Config.fbH 0
  report := { error := .noError, fetchedFrom := 0 }
  stepsDone := 0
  cycles := 0
  draws := 0
  keyWrites := 0
  romLoaded := false

end Sys2Proof.Machine
end

