-- ==== Sys2Proof/Machine/Ops.lean ====
section
/-! DEFINITION. The named operations over registers, memory, the stack, the framebuffer and the program counter
(rule R7), the guarded-error action (rule R151), which is this machine's only form of exception, and the fetch
(rule R42). There is no return from an error: "There is no trap mechanism … no return-from-trap instruction, no
nesting, and nothing to restore" (rule R158). -/

namespace Sys2Proof.Machine

/-- What a step or an instruction answers. -/
abbrev Result := Host.Outcome State Fault Refusal

/-- The state of a next state changed, a stop left as it is. -/
def mapNext (f : State → State) : Result → Result
  | .next t => .next (f t)
  | .fault r => .fault r
  | .refused r => .refused r

/-- One operation after another: the second starts from what the first answers, and a stop ends both. -/
def andThen {α β : Type} (r : Host.Outcome α Fault Refusal) (f : α → Host.Outcome β Fault Refusal) :
    Host.Outcome β Fault Refusal :=
  match r with
  | .next a => f a
  | .fault e => .fault e
  | .refused e => .refused e

/-! Registers (rules R7, R10, R12). -/

/-- `V[x]` (rule R7). -/
def State.reg (s : State) (x : Reg) : Byte := s.v[x]

/-- `V[x] <- b` (rule R7). No register is hardwired (rule R10). -/
def State.setReg (s : State) (x : Reg) (b : Byte) : State := { s with v := s.v.set x b }

/-- `I <- w` (rule R7). -/
def State.setI (s : State) (w : Word) : State := { s with i := w }

/-- `pc <- w` (rule R7). -/
def State.setPc (s : State) (w : Word) : State := { s with pc := w }

/-- `DT <- b` (rule R7). -/
def State.setDT (s : State) (b : Byte) : State := { s with dt := b }

/-- `ST <- b` (rule R7). -/
def State.setST (s : State) (b : Byte) : State := { s with st := b }

/-- `pc <- (pc + 2) mod 65536`: the extra 2 of a skip (rules R13, R85). -/
def State.skip (s : State) : State := { s with pc := s.pc + 2 }

/-- `pc <- (pc - 2) mod 65536`: the rewind of wait-for-key (rules R13, R132). -/
def State.rewind (s : State) : State := { s with pc := s.pc - 2 }

/-! The call stack (rules R14, R15). -/

/-- `STK[SP] <- pc; SP <- SP + 1`, for `SP < 16` (rule R83). -/
def State.push (s : State) (h : s.sp.val < 16) : State :=
  { s with stk := s.stk.set s.sp.val s.pc h, sp := ⟨s.sp.val + 1, by omega⟩ }

/-- `SP <- SP - 1; pc <- STK[SP]`, for `SP > 0`; the popped entry keeps its value (rule R81). -/
def State.pop (s : State) (h : 0 < s.sp.val) : State :=
  { s with sp := ⟨s.sp.val - 1, by omega⟩, pc := s.stk[s.sp.val - 1]'(by omega) }

/-! Memory (rules R7, R16, R41, R44). -/

/-- What an address that memory does not list holds: the reset contents, the font table at 0x050 to 0x09F and zero
everywhere else (rules R17, R18, R27). -/
def memBackground (a : Nat) : Byte :=
  if Config.fontBase ≤ a then Config.font.getD (a - Config.fontBase) 0 else 0

/-- `MemRead(a, 1)` (rule R7). -/
def memRead : Memory → Nat → Byte
  | [], a => memBackground a
  | (k, c) :: m, a => if k = a then c else memRead m a

/-- The entry a byte needs: none where it is the address's reset content. -/
def memEntry (a : Nat) (b : Byte) : Memory := if b = memBackground a then [] else [(a, b)]

/-- `MemWrite(a, 1, b)` (rule R7), keeping addresses strictly rising and no entry equal to its reset content. -/
def memWrite : Memory → Nat → Byte → Memory
  | [], a, b => memEntry a b
  | (k, c) :: m, a, b =>
    if a < k then memEntry a b ++ (k, c) :: m
    else if a = k then memEntry a b ++ m
    else (k, c) :: memWrite m a b

/-- Bytes stored one after another upward from `a`, "in index order" (rules R44, R46). -/
def memWriteList : Memory → Nat → List Byte → Memory
  | m, _, [] => m
  | m, a, b :: bs => memWriteList (memWrite m a b) (a + 1) bs

/-- The `n` bytes upward from `a` (rules R44, R46). -/
def memReadList (m : Memory) (a n : Nat) : List Byte := (List.range n).map fun k => memRead m (a + k)

/-- The canonical form from address `lo` on: addresses strictly rising, inside `MEM`, no entry equal to its reset
content. -/
def Memory.wfFrom : Nat → Memory → Bool
  | _, [] => true
  | lo, (a, b) :: m =>
    decide (lo ≤ a) && decide (a < Config.memSize) && (b != memBackground a) && Memory.wfFrom (a + 1) m

/-- Memory is in its canonical form, so that equal memories are equal lists. -/
def Memory.wf (m : Memory) : Bool := Memory.wfFrom 0 m

/-- The byte of a state's memory at `a` (rule R7). -/
def State.readMem (s : State) (a : Nat) : Byte := memRead s.mem a

/-- The bytes stored upward from `a` in a state's memory (rules R44, R46). -/
def State.storeBytes (s : State) (a : Nat) (bs : List Byte) : State := { s with mem := memWriteList s.mem a bs }

/-- `V[i] <- MemRead(base + i, 1)` for `i` in 0 .. x; registers above `x` keep their values (rule R145). -/
def State.loadRegs (s : State) (base : Nat) (x : Reg) : State :=
  { s with v := Vector.ofFn fun k : Fin 16 => if k ≤ x then memRead s.mem (base + k.val) else s.v[k] }

/-! The framebuffer (rules R22, R120, R121). -/

/-- The cell of column `px`, row `py`; off the screen there is no cell and nothing is on (rule R22). -/
def State.cell (s : State) (px py : Nat) : Bool :=
  if h : py < Config.fbH then s.fb[py].getLsbD px else false

/-- `FB[i]`: "The cell of column `px` … and row `py` … is `FB[py × FB_W + px]`" (rule R22). -/
def State.fbAt (s : State) (i : Nat) : Bool := s.cell (i % Config.fbW) (i / Config.fbW)

/-- Every cell off (rule R120). -/
def State.clearFb (s : State) : State := { s with fb := Vector.replicate Config.fbH 0 }

/-- One cell inverted: `FB[i] <- FB[i] ^ 1` (rule R121). -/
def State.toggle (s : State) (px py : Nat) : State :=
  { s with fb := if h : py < Config.fbH then s.fb.set py (s.fb[py] ^^^ BitVec.twoPow Config.fbW px) h else s.fb }

/-! The guarded-error action (rules R151, R152): ONE operation for all six errors. -/

/-- The report output carries the error; nothing else changes (rule R151: no write, no draw, `pc` keeps the advanced
value). -/
def State.withError (s : State) (e : Report) : State := { s with report := { s.report with error := e } }

/-- `raise <Error>(info)`: the instruction is squashed and execution goes on (rule R151). -/
def raise (e : Report) (s : State) : Result := .next (s.withError e)

/-- The code of a report (rule R152). -/
def reportCode : Report → Nat
  | .noError => 0
  | .unknownOpcode _ => 1
  | .stackOverflow => 2
  | .stackUnderflow => 3
  | .memRange _ => 4
  | .fontRange _ => 5
  | .keyRange _ => 6

/-- `MemRange` for an access group of `count` bytes upward from `start`: raised when some address of the group is 4096
or more, with the first such address, `max(start, 4096)`; addresses are unbounded and never wrap
(rules R41, R48, R152, R155). An empty group has no address (rule R121). -/
def memRangeError (start count : Nat) : Option Report :=
  if count = 0 ∨ start + count ≤ Config.memSize then none else some (.memRange (max start Config.memSize))

/-! The fetch (rules R42, R186). -/

/-- The fetch's own check: both bytes must lie inside memory (rules R42, R155). -/
def State.fetchError (s : State) : Option Report := memRangeError s.pc.toNat 2

/-- `op <- MemRead(a, 1) ++ MemRead(a + 1, 1)` (rules R42, R186). -/
def State.fetchWord (s : State) : Word := wordOfBytes (s.readMem s.pc.toNat) (s.readMem (s.pc.toNat + 1))

/-- `pc <- (a + 2) mod 65536`, and the step's report begins as `None` with the address fetched from
(rules R13, R152, R186). -/
def State.advance (s : State) : State :=
  { s with pc := s.pc + 2, report := { error := .noError, fetchedFrom := s.pc } }

/-- What a fetch and decode gives: an instruction to run, or an error to report (rules R160, R186). -/
inductive Fetched where
  | instr (i : Instr)
  | error (e : Report)
  deriving DecidableEq, Repr

/-- Fetch and decode, "in the order of the step's phases": fetch range first, then the unrecognised word
(rules R66, R156, R160). -/
def State.fetch (s : State) : Fetched :=
  match s.fetchError with
  | some e => .error e
  | none =>
    match decodeWord s.fetchWord with
    | .ok i => .instr i
    | .error _ => .error (.unknownOpcode s.fetchWord)

end Sys2Proof.Machine
end

