-- ==== Sys2Proof/Machine/Operands.lean ====
section
/-! DEFINITION. Operand forms: the one memory operand form "at `I` plus a constant offset" with its range guard
(rules R46, R48, R62), digits, glyph addresses, key slots, and a sprite's cells. -/

namespace Sys2Proof.Machine

/-- The effective address `I + k`, computed without truncation (rule R48). -/
def ea (s : State) (k : Nat) : Nat := s.i.toNat + k

/-- A memory instruction's execute-phase check over the `count` bytes at `I` (rules R41, R48, R155): its meaning runs
only if every address is inside memory, else it raises `MemRange`. -/
def guardGroup (s : State) (count : Nat) (run : State → State) : Result :=
  match memRangeError (ea s 0) count with
  | some e => raise e s
  | none => .next (run s)

/-- The digits of a byte: hundreds, tens, ones (rule R143). -/
def bcdDigits (v : Byte) : List Byte :=
  [BitVec.ofNat 8 (v.toNat / 100), BitVec.ofNat 8 (v.toNat / 10 % 10), BitVec.ofNat 8 (v.toNat % 10)]

/-- `V[0]` to `V[x]` in index order (rule R144). -/
def regsUpTo (s : State) (x : Reg) : List Byte := (s.v.toList).take (x.val + 1)

/-- `0x050 + 5 * d` (rule R142). -/
def glyphAddr (d : Byte) : Word := BitVec.ofNat 16 (Config.fontBase + 5 * d.toNat)

/-- `KEY[k]` (rule R7). -/
def keyDown (s : State) (k : Nat) : Bool := s.key.getLsbD k

/-- "the least such k": the lowest pressed slot, "in a fixed priority order (0 through 15)" (rule R132). -/
def lowestKey (s : State) : Option Nat := (List.range 16).find? fun k => keyDown s k

/-- A key skip's execute-phase check: the whole byte is the slot's number (rules R130, R131, R157). -/
def guardKey (s : State) (k : Byte) (run : State → State) : Result :=
  if 15 < k.toNat then raise (.keyRange k) s else .next (run s)

/-- The cells of one sprite row that are on and inside the screen, leftmost first: "most significant bit is the
leftmost pixel", pixels past the right edge are clipped (rules R121, R122). -/
def rowCells (x0 y : Nat) (bits : Byte) : List (Nat × Nat) :=
  ((List.range 8).filter fun col =>
    bits.getLsbD (7 - col) && decide (x0 + col < Config.fbW) && decide (y < Config.fbH)).map fun col => (x0 + col, y)

/-- The cells a sprite inverts, row by row from the top (rules R121, R122). -/
def spriteCells (x0 : Nat) : Nat → List Byte → List (Nat × Nat)
  | _, [] => []
  | y, bits :: rest => rowCells x0 y bits ++ spriteCells x0 (y + 1) rest

/-- The column a sprite starts at: the origin wraps (rules R121, R122). -/
def originX (b : Byte) : Nat := b.toNat % Config.fbW

/-- The row a sprite starts at: the origin wraps (rules R121, R122). -/
def originY (b : Byte) : Nat := b.toNat % Config.fbH

end Sys2Proof.Machine
end

