-- ==== Sys2Proof/Machine/Flags.lean ====
section
/-! DEFINITION. The flag computations: each gives exactly 0 or 1 (rule R11). -/

namespace Sys2Proof.Machine

/-- 1 for true, 0 for false. -/
def flagOf (b : Bool) : Byte := if b then 1 else 0

/-- add-reg's carry: "1 if sum > 255 else 0" on the 9-bit sum (rule R106). -/
def carryFlag (a b : Byte) : Byte := flagOf (decide (255 < a.toNat + b.toNat))

/-- sub-reg's and subn-reg's flag: 1 exactly when the first is STRICTLY greater (rules R107, R108; conflict C4). -/
def greaterFlag (a b : Byte) : Byte := flagOf (decide (b.toNat < a.toNat))

/-- shift-right's flag: `a[0]` (rule R109). -/
def lowBitFlag (a : Byte) : Byte := flagOf (a.getLsbD 0)

/-- shift-left's flag: `a[7]`, "0 or 1, not 0x80" (rule R110). -/
def highBitFlag (a : Byte) : Byte := flagOf (a.getLsbD 7)

/-- The flag first and the result second, so that with `x = 15` "the result is what remains" (rule R113). -/
def State.setFlagThenReg (s : State) (f : Byte) (x : Reg) (r : Byte) : State := (s.setReg flagReg f).setReg x r

/-- One cell of draw-sprite: "if FB[…] = 1 then V[15] <- 1" and then the cell inverted (rule R121). -/
def drawCell (s : State) (p : Nat × Nat) : State :=
  let t := if s.cell p.1 p.2 then s.setReg flagReg 1 else s
  t.toggle p.1 p.2

/-- draw-sprite's loop over the sprite's cells, the flag cleared before it (rule R121). -/
def drawCells (s : State) (cells : List (Nat × Nat)) : State := cells.foldl drawCell (s.setReg flagReg 0)

end Sys2Proof.Machine
end

