-- ==== Sys2Proof/Machine/Alu.lean ====
section
/-! DEFINITION. Register, arithmetic and logical instructions (41_alu.md). Operands are read before anything is
written (rule R113). -/

namespace Sys2Proof.Machine

/-- load-imm (rule R100). -/
def execLdImm (x : Reg) (kk : Byte) (s : State) : Result := .next (s.setReg x kk)

/-- add-imm: wrapping, no flag (rule R101). -/
def execAddImm (x : Reg) (kk : Byte) (s : State) : Result := .next (s.setReg x (s.reg x + kk))

/-- reg-to-reg move (rule R102). -/
def execLdReg (x y : Reg) (s : State) : Result := .next (s.setReg x (s.reg y))

/-- OR (rule R103). -/
def execOr (x y : Reg) (s : State) : Result := .next (s.setReg x (s.reg x ||| s.reg y))

/-- AND (rule R104). -/
def execAnd (x y : Reg) (s : State) : Result := .next (s.setReg x (s.reg x &&& s.reg y))

/-- XOR (rule R105). -/
def execXor (x y : Reg) (s : State) : Result := .next (s.setReg x (s.reg x ^^^ s.reg y))

/-- add-reg (rule R106). -/
def execAddReg (x y : Reg) (s : State) : Result :=
  .next (s.setFlagThenReg (carryFlag (s.reg x) (s.reg y)) x (s.reg x + s.reg y))

/-- sub-reg (rule R107). -/
def execSub (x y : Reg) (s : State) : Result :=
  .next (s.setFlagThenReg (greaterFlag (s.reg x) (s.reg y)) x (s.reg x - s.reg y))

/-- subn-reg (rule R108). -/
def execSubn (x y : Reg) (s : State) : Result :=
  .next (s.setFlagThenReg (greaterFlag (s.reg y) (s.reg x)) x (s.reg y - s.reg x))

/-- shift-right: logical, `V[y]` neither read nor written (rules R67, R109). -/
def execShr (x _y : Reg) (s : State) : Result :=
  .next (s.setFlagThenReg (lowBitFlag (s.reg x)) x (s.reg x >>> 1))

/-- shift-left: `V[y]` neither read nor written (rules R67, R110). -/
def execShl (x _y : Reg) (s : State) : Result :=
  .next (s.setFlagThenReg (highBitFlag (s.reg x)) x (s.reg x <<< 1))

/-- random-and: "Each execution of random-and consumes one fresh 8-bit value" (rules R111, R112). -/
def execRnd (x : Reg) (kk : Byte) (s : State) : Result :=
  .next { s.setReg x (Config.rnd s.draws &&& kk) with draws := s.draws + 1 }

end Sys2Proof.Machine
end

