-- ==== Sys2Proof/Machine/Display.lean ====
section
/-! DEFINITION. Framebuffer instructions (42_display.md). -/

namespace Sys2Proof.Machine

/-- clear-screen (rule R120). -/
def execCls (s : State) : Result := .next s.clearFb

/-- draw-sprite (rules R121, R122): the `n` sprite bytes are checked and read first, the origin is taken from the
registers as they were before the flag is cleared. -/
def execDrw (x y : Reg) (n : Fin 16) (s : State) : Result :=
  guardGroup s n.val fun s =>
    drawCells s (spriteCells (originX (s.reg x)) (originY (s.reg y)) (memReadList s.mem (ea s 0) n.val))

end Sys2Proof.Machine
end

