-- ==== Sys2Proof/Machine/Flow.lean ====
section
/-! DEFINITION. Control transfer (40_flow.md). `pc` is already advanced when a meaning starts (rule R80). -/

namespace Sys2Proof.Machine

/-- return (rule R81). -/
def execRet (s : State) : Result := if h : 0 < s.sp.val then .next (s.pop h) else raise .stackUnderflow s

/-- jump addr (rule R82). -/
def execJp (addr : Addr) (s : State) : Result := .next (s.setPc (zextAddr addr))

/-- call addr (rule R83): the advanced `pc` is pushed. -/
def execCall (addr : Addr) (s : State) : Result :=
  if h : s.sp.val < 16 then .next ((s.push h).setPc (zextAddr addr)) else raise .stackOverflow s

/-- skip-eq-imm (rule R85). -/
def execSeImm (x : Reg) (kk : Byte) (s : State) : Result := .next (if s.reg x = kk then s.skip else s)

/-- skip-ne-imm (rule R86). -/
def execSneImm (x : Reg) (kk : Byte) (s : State) : Result := .next (if s.reg x ≠ kk then s.skip else s)

/-- skip-eq-reg (rule R87). -/
def execSeReg (x y : Reg) (s : State) : Result := .next (if s.reg x = s.reg y then s.skip else s)

/-- skip-ne-reg (rule R88). -/
def execSneReg (x y : Reg) (s : State) : Result := .next (if s.reg x ≠ s.reg y then s.skip else s)

/-- jump-with-offset (rule R84): always `V[0]`, nothing is truncated. -/
def execJpV0 (addr : Addr) (s : State) : Result := .next (s.setPc (zextAddr addr + zextByte (s.reg 0)))

end Sys2Proof.Machine
end

