-- ==== Sys2Proof/Machine/IndexMemory.lean ====
section
/-! DEFINITION. Address-register, load and store instructions (44_index_memory.md). `I` is changed by no access. -/

namespace Sys2Proof.Machine

/-- load-index (rule R140; the spec's decision D3). -/
def execLdI (addr : Addr) (s : State) : Result := .next (s.setI (zextAddr addr))

/-- add-to-index: modulo 65536, no flag (rule R141). -/
def execAddI (x : Reg) (s : State) : Result := .next (s.setI (s.i + zextByte (s.reg x)))

/-- font-char-address (rules R142, R157). -/
def execLdF (x : Reg) (s : State) : Result :=
  if 15 < (s.reg x).toNat then raise (.fontRange (s.reg x)) s else .next (s.setI (glyphAddr (s.reg x)))

/-- store-bcd (rule R143). -/
def execLdB (x : Reg) (s : State) : Result :=
  guardGroup s 3 fun s => s.storeBytes (ea s 0) (bcdDigits (s.reg x))

/-- store-registers (rule R144). -/
def execLdIVx (x : Reg) (s : State) : Result :=
  guardGroup s (x.val + 1) fun s => s.storeBytes (ea s 0) (regsUpTo s x)

/-- load-registers (rule R145). -/
def execLdVxI (x : Reg) (s : State) : Result :=
  guardGroup s (x.val + 1) fun s => s.loadRegs (ea s 0) x

end Sys2Proof.Machine
end

