-- ==== Sys2Proof/Machine/KeypadTimer.lean ====
section
/-! DEFINITION. Keypad and timer instructions (43_keypad_timer.md). -/

namespace Sys2Proof.Machine

/-- skip-if-key-pressed (rule R130). -/
def execSkp (x : Reg) (s : State) : Result :=
  guardKey s (s.reg x) fun s => if keyDown s (s.reg x).toNat then s.skip else s

/-- skip-if-key-not-pressed (rule R131). -/
def execSknp (x : Reg) (s : State) : Result :=
  guardKey s (s.reg x) fun s => if keyDown s (s.reg x).toNat then s else s.skip

/-- read-delay-timer (rule R133). -/
def execLdVxDT (x : Reg) (s : State) : Result := .next (s.setReg x s.dt)

/-- wait-for-key: the lowest pressed slot, or the advance undone (rules R132, R136). -/
def execLdVxK (x : Reg) (s : State) : Result :=
  match lowestKey s with
  | some k => .next (s.setReg x (BitVec.ofNat 8 k))
  | none => .next s.rewind

/-- set-delay-timer (rule R134). -/
def execLdDTVx (x : Reg) (s : State) : Result := .next (s.setDT (s.reg x))

/-- set-sound-timer (rule R135). -/
def execLdSTVx (x : Reg) (s : State) : Result := .next (s.setST (s.reg x))

end Sys2Proof.Machine
end

