-- ==== Sys2Proof/Machine/Cycle.lean ====
section
/-! DEFINITION. The step of rule R186, the timer tick of rule R163, the cycle operation of rule R187, and what happens
at the boundary of a cycle when the machine runs step by step. -/

namespace Sys2Proof.Machine

/-- The step: "fetch, decode, dispatch, and execute one instruction" (rule R186). A fetch or dispatch error leaves
`pc` advanced and is reported (rules R42, R66, R151). -/
def instrStep (s : State) : Result :=
  match s.fetch with
  | .error e => raise e s.advance
  | .instr i => exec i s.advance

/-- "DT - 1 if DT > 0 else 0" (rule R163). -/
def timerDec (t : Byte) : Byte := if t = 0 then 0 else t - 1

/-- The timer tick: both timers together (rule R163). -/
def timerTick (s : State) : State := { s with dt := timerDec s.dt, st := timerDec s.st }

/-- `n` steps one after another, with their reports in step order (rules R152, R187). -/
def runBatch : Nat → State → Host.Outcome (State × List StepReport) Fault Refusal
  | 0, s => .next (s, [])
  | n + 1, s => andThen (instrStep s) fun t => andThen (runBatch n t) fun p => .next (p.1, t.report :: p.2)

/-- The end of a cycle operation: the timer tick, and the cycle counted (rule R187). -/
def endCycle (s : State) : State := { timerTick s with cycles := s.cycles + 1 }

/-- No cycle operation is in progress (rules R52, R166). -/
def State.betweenCycles (s : State) : Bool := decide (s.stepsDone = 0)

/-- A host operation is made only between two cycle operations: "Every host access therefore falls between two complete
cycle operations" (rule R52), and a host that acts inside a cycle, or re-enters it, "is outside the specification"
(rule R169). -/
def whenBetweenCycles {α : Type} (s : State) (act : Host.Outcome α Fault Refusal) : Host.Outcome α Fault Refusal :=
  if s.betweenCycles then act else .refused .hostInsideCycle

/-- The cycle operation with a batch of `n` steps: the steps, then one timer tick; the reports in order (rule R187). It
is "non-reentrant" (rule R187) and usable "any time after ROM load, never re-entrantly" (rule R166). -/
def cycleOf (n : Nat) (s : State) : Host.Outcome (State × List StepReport) Fault Refusal :=
  whenBetweenCycles s <|
    if s.romLoaded then andThen (runBatch n s) fun p => .next (endCycle p.1, p.2) else .refused .noRomLoaded

/-- The cycle operation of the machine: a batch of `BATCH_SIZE` steps (rule R187). -/
def cycle (s : State) : Host.Outcome (State × List StepReport) Fault Refusal := cycleOf Config.batchSize s

/-- The step just made was the last of its cycle operation: `BATCH_SIZE` steps are made (rule R187). -/
def State.lastOfCycle (s : State) : Bool := decide (Config.batchSize ≤ s.stepsDone + 1)

/-- The host's optional keypad write between two cycle operations, a free input (rules R167, R188; assumption 2). -/
def keypadInput (s : State) : State :=
  { s with key := (Config.keypadWrite s.keyWrites).getD s.key, keyWrites := s.keyWrites + 1 }

/-- A timer after a step: ticked if the step ended its cycle operation. A timer at 0 stays at 0 either way, so its
value does not depend on the open `BATCH_SIZE` (rules R163, R187). -/
def timerAfter (last : Bool) (t : Byte) : Byte := if t = 0 then 0 else if last then timerDec t else t

/-- What follows every step: the step is counted, and after the last one of a cycle operation both timers tick and the
host may write the keypad (rules R163, R167, R187, R188). Each field is chosen on its own, so that the fields that do
not depend on where the cycle ends can be evaluated though `BATCH_SIZE` is open. -/
def State.endStep (s : State) : State :=
  { s with
    dt := timerAfter s.lastOfCycle s.dt
    st := timerAfter s.lastOfCycle s.st
    key := if s.lastOfCycle then (keypadInput s).key else s.key
    keyWrites := if s.lastOfCycle then s.keyWrites + 1 else s.keyWrites
    cycles := if s.lastOfCycle then s.cycles + 1 else s.cycles
    stepsDone := if s.lastOfCycle then 0 else s.stepsDone + 1 }

end Sys2Proof.Machine
end

