-- ==== Sys2Proof/Machine/Step.lean ====
section
/-! DEFINITION. One step of the running machine, and the placing of an instruction where the next step fetches it. -/

namespace Sys2Proof.Machine

/-- One step: the instruction step of rule R186, then the end of the step (`State.endStep`): the count of rule R187 and,
after the last step of a cycle operation, the timer tick of rule R163 and the host's keypad write of rule R167. -/
def step (s : State) : Host.Outcome State Fault Refusal := mapNext State.endStep (instrStep s)

/-- `s` with an instruction of one table word stored where `step` fetches next: high byte at `pc`, low byte after it
(rule R42). Where `pc` holds an address that cannot be fetched from (rule R13), `pc` becomes the entry point 0x0200. -/
def State.withFetchWord (s : State) (nbits w : Nat) : State :=
  let op : Word := BitVec.ofNat 16 (w % 2 ^ nbits)
  let a : Word := if s.fetchError = none then s.pc else Config.pcReset
  { s with pc := a, mem := memWriteList s.mem a.toNat [hiByte op, loByte op] }

end Sys2Proof.Machine
end

