-- ==== Sys2Proof/WellFormed.lean ====
section
/-! DEFINITION. What a well-formed instruction word and a well-formed program are.
An `Instr` needs no check of its own: its operands' types (`Fin 16`, `BitVec 8`, `BitVec 12`) hold every bound the
encoding gives them, "a register index can never be out of range" (rule R62), so every term of `Instr` is well formed.
What can be ill formed is a 16-bit WORD (one of the six classes of unrecognised words of rule R66) and a ROM IMAGE
(one that does not fit, rule R185). The classes of rule R66 are written here from that rule's own table, apart from
the decoder, so that "the decoder accepts exactly the well-formed words" says something. -/

namespace Sys2Proof

/-- 0x0000 to 0x0FFF except 0x00E0 and 0x00EE (rule R66). -/
def unusedZero (w : Word) : Bool := decide (w.toNat < 0x1000) && w != 0x00E0 && w != 0x00EE

/-- 5xyN with N ≠ 0 (rules R66, R67). -/
def unusedFive (w : Word) : Bool := decide (w.toNat / 0x1000 = 5) && decide (w.toNat % 16 ≠ 0)

/-- 8xyN with N in {8, 9, A, B, C, D, F} (rule R66). -/
def unusedEight (w : Word) : Bool :=
  decide (w.toNat / 0x1000 = 8) && [0x8, 0x9, 0xA, 0xB, 0xC, 0xD, 0xF].contains (w.toNat % 16)

/-- 9xyN with N ≠ 0 (rules R66, R67). -/
def unusedNine (w : Word) : Bool := decide (w.toNat / 0x1000 = 9) && decide (w.toNat % 16 ≠ 0)

/-- Exkk with kk not in {0x9E, 0xA1} (rule R66). -/
def unusedE (w : Word) : Bool :=
  decide (w.toNat / 0x1000 = 0xE) && !([0x9E, 0xA1].contains (w.toNat % 256))

/-- Fxkk with kk not in {0x07, 0x0A, 0x15, 0x18, 0x1E, 0x29, 0x33, 0x55, 0x65} (rule R66). -/
def unusedF (w : Word) : Bool :=
  decide (w.toNat / 0x1000 = 0xF) &&
    !([0x07, 0x0A, 0x15, 0x18, 0x1E, 0x29, 0x33, 0x55, 0x65].contains (w.toNat % 256))

/-- The words that match no row of the opcode map, as rule R66 lists them. -/
def unrecognised (w : Word) : Bool :=
  unusedZero w || unusedFive w || unusedEight w || unusedNine w || unusedE w || unusedF w

/-- A word is well formed when it is none of rule R66's unrecognised words. -/
def wordWellFormed (w : Word) : Bool := !unrecognised w

/-- A ROM image is well formed when it fits between 0x200 and 0xFFF: at most 3584 bytes (rules R184, R185). -/
def romWellFormed (rom : List Byte) : Bool := decide (rom.length ≤ Config.memSize - Config.romBase)

end Sys2Proof
end

