-- ==== Sys2Proof/Machine/HostPort.lean ====
section
/-! DEFINITION. The host's side of the interfaces of rule R166: reset, ROM load, keypad write, framebuffer read, and the
run they make up with the cycle operation of Cycle.lean (rule R188). Every one of them is usable only between cycle
operations (rules R52, R166, R169). -/

namespace Sys2Proof.Machine

/-- Reset "that may be asserted again (between cycle operations) returns the machine to exactly this state, program
area included, so that the ROM must be loaded again" (rule R180). The indices of the free draws and keypad writes go on,
so that later ones are fresh. -/
def hostReset (s : State) : Result :=
  whenBetweenCycles s (.next { State.reset with draws := s.draws, keyWrites := s.keyWrites })

/-- ROM load: the bytes copied verbatim upward from 0x200, a longer image than 3584 bytes refused whole (rules R184,
R185); only "after reset, before the first cycle" (rule R166), and one load in a run (rule R188). -/
def hostLoadRom (rom : List Byte) (s : State) : Result :=
  whenBetweenCycles s <|
    if s.cycles ≠ 0 then .refused .loadAfterStart
    else if s.romLoaded then .refused .romAlreadyLoaded
    else if romWellFormed rom then .next { s.storeBytes Config.romBase rom with romLoaded := true }
    else .refused (.romTooLarge rom.length)

/-- Keypad write: "Between two cycle operations the host may set `KEY` to any 16-bit pattern" (rule R167). -/
def hostWriteKeypad (k : BitVec 16) (s : State) : Result := whenBetweenCycles s (.next { s with key := k })

/-- One cell as the read interface presents it: "all bits set for on, zero for off" (rule R168). -/
def presentCell (on : Bool) : BitVec Config.cellBits := if on then BitVec.allOnes Config.cellBits else 0

/-- "The `FB_W × FB_H` cells in index order" as the read interface presents them (rule R168). -/
def framebufferCells (s : State) : List (BitVec Config.cellBits) :=
  (List.range Config.fbCells).map fun i => presentCell (s.fbAt i)

/-- Framebuffer read, with no effect on the core; "intermediate pictures inside a batch … are not observable"
(rule R168). -/
def hostReadFramebuffer (s : State) : Host.Outcome (List (BitVec Config.cellBits)) Fault Refusal :=
  whenBetweenCycles s (.next (framebufferCells s))

/-- What is observable of one round of a run: "the framebuffer after each cycle, the reports of each cycle"
(rule R188). -/
structure Observed where
  reports : List StepReport
  framebuffer : List (BitVec Config.cellBits)
  deriving DecidableEq, Repr

/-- The optional keypad write that begins a round (rule R188). -/
def optionalKeypadWrite (k : Option (BitVec 16)) (s : State) : Result :=
  match k with
  | some p => hostWriteKeypad p s
  | none => .next s

/-- A round: "an optional keypad write, one cycle operation, and an optional framebuffer read" (rule R188). The read has
no effect on the core (rule R168), so a round in which the host does not look is the same round. -/
def hostRound (k : Option (BitVec 16)) (s : State) : Host.Outcome (State × Observed) Fault Refusal :=
  andThen (optionalKeypadWrite k s) fun t => andThen (cycle t) fun p => andThen (hostReadFramebuffer p.1) fun cells =>
    .next (p.1, { reports := p.2, framebuffer := cells })

/-- The rounds of a run one after another: the state after the last cycle and what is observable of each round
(rule R188). -/
def hostRounds : List (Option (BitVec 16)) → State → Host.Outcome (State × List Observed) Fault Refusal
  | [], s => .next (s, [])
  | k :: ks, s => andThen (hostRound k s) fun p => andThen (hostRounds ks p.1) fun q => .next (q.1, p.2 :: q.2)

/-- A run: "reset; one ROM load; then any number of rounds" (rules R183, R188). -/
def hostRun (rom : List Byte) (ks : List (Option (BitVec 16))) (s : State) :
    Host.Outcome (State × List Observed) Fault Refusal :=
  andThen (hostReset s) fun t => andThen (hostLoadRom rom t) fun u => hostRounds ks u

end Sys2Proof.Machine
end

