-- ==== Sys2Proof/Safety.lean ====
section
/-! DEFINITION. The terms statements are written in: the invariant of the machine, a step without an error, and what it
means that an instruction leaves state unchanged. -/

namespace Sys2Proof.Machine

/-- The invariant of the model: memory is in its canonical form, inside the 4096 bytes (rules R16, R41), and the count
of the cycle operation in progress is below `BATCH_SIZE` (rule R187). The bounds of rule R26 stand in the fields'
types. -/
def State.Inv (s : State) : Prop := s.mem.wf = true ∧ s.stepsDone < Config.batchSize

/-- The report of the last step is `None` (rule R152). -/
def State.quiet (s : State) : Prop := s.report.error = .noError

/-- `n` steps of the running machine one after another, stopping where a step does. -/
def runSteps : Nat → State → Result
  | 0, s => .next s
  | n + 1, s =>
    match step s with
    | .next t => runSteps n t
    | .fault r => .fault r
    | .refused r => .refused r

/-- Every register but those in `xs` keeps its value. -/
def RegsKept (s t : State) (xs : List Reg) : Prop := ∀ y : Reg, y ∉ xs → t.reg y = s.reg y

/-- Every byte of memory reads as before. -/
def MemKept (s t : State) : Prop := ∀ a : Nat, t.readMem a = s.readMem a

/-- Every byte of memory outside the `n` bytes at `a` reads as before. -/
def MemKeptOutside (s t : State) (a n : Nat) : Prop := ∀ b : Nat, b < a ∨ a + n ≤ b → t.readMem b = s.readMem b

/-- The call stack and its pointer keep their values. -/
def StackKept (s t : State) : Prop := t.stk = s.stk ∧ t.sp = s.sp

/-- Timers, keypad, and the fields no instruction writes at all keep their values (rules R19 to R21, R28). -/
def TimersKeysKept (s t : State) : Prop := t.dt = s.dt ∧ t.st = s.st ∧ t.key = s.key

/-- Every cell of the framebuffer keeps its value. -/
def FbKept (s t : State) : Prop := ∀ px py : Nat, t.cell px py = s.cell px py

/-- The model's own fields keep their values. -/
def OwnKept (s t : State) : Prop :=
  t.report = s.report ∧ t.stepsDone = s.stepsDone ∧ t.cycles = s.cycles ∧ t.draws = s.draws ∧
    t.keyWrites = s.keyWrites ∧ t.romLoaded = s.romLoaded

/-- The frame of an instruction that may change `pc` and the registers in `xs` and nothing else: memory is unchanged
byte for byte, `I`, stack, timers, keypad, framebuffer and the model's own fields are unchanged. -/
def FrameRegs (s t : State) (xs : List Reg) : Prop :=
  RegsKept s t xs ∧ MemKept s t ∧ t.i = s.i ∧ StackKept s t ∧ TimersKeysKept s t ∧ FbKept s t ∧ OwnKept s t

/-- A sprite of `n` rows drawn at `V[x]`, `V[y]` covers the cell of column `px`, row `py` with an on bit: the origin
wraps, the extent does not, bit 7 is the leftmost pixel (rules R121, R122). -/
def SpriteCovers (s : State) (x y : Reg) (n : Nat) (px py : Nat) : Prop :=
  let x0 := (s.reg x).toNat % Config.fbW
  let y0 := (s.reg y).toNat % Config.fbH
  x0 ≤ px ∧ px < x0 + 8 ∧ y0 ≤ py ∧ py < y0 + n ∧
    (s.readMem (s.i.toNat + (py - y0))).getLsbD (7 - (px - x0)) = true

/-- The instruction was squashed: no state but the report output differs, and the report carries `e`
(rules R151, R152). -/
def Squashed (s t : State) (e : Report) : Prop := t = { s with report := { s.report with error := e } }

end Sys2Proof.Machine
end

