-- ==== Sys2Proof/Certificates/Slice0/Obligations.lean ====
section
/-! DEFINITION. The statements for the provers. Each docstring names the rules it formalises; clauses that rest on a
decision of the spec (92_eei_decisions.md) or on the model's own choices say so. In a statement about `exec` the state
is the one after the fetch: `pc` is already advanced (rule R80). -/

open Sys2Proof Sys2Proof.Machine

/-! ## Reset and the invariant -/

/-- Rules R27, R180, R181: what reset leaves. The values of `SP`, `I` and of memory outside the font rest on the spec's
decision D20, the font's bytes on D10. -/
def Obligations.ResetLeavesTheTableOfReset : Prop :=
  (∀ x : Reg, State.reset.reg x = 0) ∧ (∀ k : Fin 16, State.reset.stk[k] = 0) ∧ State.reset.sp = 0 ∧
  State.reset.i = 0 ∧ State.reset.pc = 0x0200 ∧ State.reset.dt = 0 ∧ State.reset.st = 0 ∧
  (∀ k < 16, keyDown State.reset k = false) ∧ (∀ i < Config.fbCells, State.reset.fbAt i = false) ∧
  (∀ k < 80, State.reset.readMem (0x050 + k) = Config.font.getD k 0) ∧
  (∀ a < 4096, a < 0x050 ∨ 0x0A0 ≤ a → State.reset.readMem a = 0)

/-- The machine's invariant (memory canonical and inside the 4096 bytes, the step count below `BATCH_SIZE`) holds at
reset. -/
def Obligations.ResetMeetsInvariant : Prop := State.reset.Inv

/-- Every step keeps the invariant, from every state that meets it. -/
def Obligations.StepKeepsInvariant : Prop := ∀ s t : State, s.Inv → step s = .next t → t.Inv

/-- Rules R186, R68: the step "is total: it is defined for every state and always yields a next state". -/
def Obligations.StepAlwaysAnswersNext : Prop := ∀ s : State, ∃ t, step s = .next t

/-! ## Fetch, decode, encode -/

/-- Rules R42, R186: when both bytes at `pc` lie in memory and decode to `i`, high byte first, the step is `exec i` on
the state with `pc` advanced and a clean report, followed by the end of the step. -/
def Obligations.StepRunsTheDecodedInstruction : Prop :=
  ∀ (s : State) (i : Instr), s.pc.toNat + 1 < 4096 →
    decodeBytes [s.readMem s.pc.toNat, s.readMem (s.pc.toNat + 1)] = .ok (i, []) →
    step s = mapNext State.endStep
      (exec i { s with pc := s.pc + 2, report := { error := .noError, fetchedFrom := s.pc } })

/-- Rules R42, R155 (the spec's decision D13): a fetch whose bytes are not both in memory reports `MemRange` with the
first address of 4096 or more, advances `pc` and dispatches nothing. -/
def Obligations.FetchOutsideMemoryIsReported : Prop :=
  ∀ s : State, 4095 ≤ s.pc.toNat →
    instrStep s = .next { s with
      pc := s.pc + 2, report := { error := .memRange (max s.pc.toNat 4096), fetchedFrom := s.pc } }

/-- Rule R156: an unrecognised word is reported with the word, `pc` advanced, nothing else changed. -/
def Obligations.UnrecognisedWordIsReported : Prop :=
  ∀ (s : State) (w : Word), s.pc.toNat + 1 < 4096 →
    wordOfBytes (s.readMem s.pc.toNat) (s.readMem (s.pc.toNat + 1)) = w → unrecognised w = true →
    instrStep s = .next { s with
      pc := s.pc + 2, report := { error := .unknownOpcode w, fetchedFrom := s.pc } }

/-- Rules R60, R61, R64: decoding an encoded instruction gives it back with every operand, and leaves the bytes after
it. -/
def Obligations.DecodeOfEncodeIsIdentity : Prop :=
  ∀ (i : Instr) (rest : List Byte), decodeBytes (encodeBytes i ++ rest) = .ok (i, rest)

/-- Rules R61, R67: "in every other row each bit is either matched or is an operand bit": a decoded word is the word of
its instruction. -/
def Obligations.EncodeOfDecodeIsIdentity : Prop :=
  ∀ (w : Word) (i : Instr), decodeWord w = .ok i → encode i = w

/-- Rules R66, R68: the decoder refuses, by name, exactly the words rule R66 lists. -/
def Obligations.DecoderRefusesExactlyTheListedWords : Prop :=
  ∀ w : Word, (unrecognised w = true → decodeWord w = .error (.unknownOpcode w)) ∧
    (unrecognised w = false → ∃ i, decodeWord w = .ok i)

/-- Rules R63, R64: the word of a decoded instruction matches exactly one row of the opcode map, its own, and a refused
word matches none ("no two patterns overlap"). -/
def Obligations.EachWordMatchesAtMostItsOwnRow : Prop :=
  ∀ w : Word, (opcodeMap.filter (fun r => rowMatches r w)).map OpcodeRow.mnemonic =
    match decodeWord w with
    | .ok i => [mnemonic i]
    | .error _ => []

/-- Fifteen words of the spec's worked examples (rules R81 to R145), one of each family and more, decode to the
instruction the example runs, and the word 0x5121 of vector F23, in no worked example, is refused (rules R66, R67: the
spec's decision D4). The map itself is the spec's decision D2. -/
def Obligations.ExampleWordsDecode : Prop :=
  decodeWord 0x00EE = .ok .ret ∧ decodeWord 0x1234 = .ok (.jp 0x234) ∧ decodeWord 0x332A = .ok (.seImm 3 0x2A) ∧
  decodeWord 0x9120 = .ok (.sneReg 1 2) ∧ decodeWord 0x6A2F = .ok (.ldImm 10 0x2F) ∧
  decodeWord 0x8125 = .ok (.sub 1 2) ∧ decodeWord 0x830E = .ok (.shl 3 0) ∧ decodeWord 0xC50F = .ok (.rnd 5 0x0F) ∧
  decodeWord 0x00E0 = .ok .cls ∧ decodeWord 0xD015 = .ok (.drw 0 1 5) ∧ decodeWord 0xE29E = .ok (.skp 2) ∧
  decodeWord 0xF50A = .ok (.ldVxK 5) ∧ decodeWord 0xF415 = .ok (.ldDTVx 4) ∧ decodeWord 0xA2F0 = .ok (.ldI 0x2F0) ∧
  decodeWord 0xF255 = .ok (.ldIVx 2) ∧ decodeWord 0x5121 = .error (.unknownOpcode 0x5121)

/-! ## Control transfer -/

/-- Rule R82: `pc <- zext_16(addr)`, and nothing else changes. -/
def Obligations.JumpSetsPc : Prop :=
  ∀ (s : State) (addr : Addr), ∃ t, exec (.jp addr) s = .next t ∧ t.pc.toNat = addr.toNat ∧ FrameRegs s t []

/-- Rule R84: `pc <- zext_16(addr) + zext_16(V[0])`, nothing is truncated, and nothing else changes. -/
def Obligations.JumpWithOffsetAddsRegisterZero : Prop :=
  ∀ (s : State) (addr : Addr), ∃ t, exec (.jpV0 addr) s = .next t ∧
    t.pc.toNat = addr.toNat + (s.reg 0).toNat ∧ FrameRegs s t []

/-- Rules R83, R153: with `SP < 16` the advanced `pc` is pushed at `SP`, `SP` goes up by 1 and `pc` is the address, with
the frame; with `SP = 16` the call is squashed and reports (the spec's decision D16). -/
def Obligations.CallPushesOrReportsOverflow : Prop :=
  ∀ (s : State) (addr : Addr),
    (s.sp.val < 16 → ∃ t, exec (.call addr) s = .next t ∧ t.pc.toNat = addr.toNat ∧ t.sp.val = s.sp.val + 1 ∧
      (∀ k : Fin 16, t.stk[k] = if k.val = s.sp.val then s.pc else s.stk[k]) ∧
      RegsKept s t [] ∧ MemKept s t ∧ t.i = s.i ∧ TimersKeysKept s t ∧ FbKept s t ∧ OwnKept s t) ∧
    (s.sp.val = 16 → ∃ t, exec (.call addr) s = .next t ∧ Squashed s t .stackOverflow)

/-- Rules R81, R154: with `SP > 0`, `SP` goes down by 1 and `pc` is the entry at the new `SP`, every entry kept, with
the frame; with `SP = 0` the return is squashed and reports (the spec's decision D16). -/
def Obligations.ReturnPopsOrReportsUnderflow : Prop :=
  ∀ s : State,
    (0 < s.sp.val → ∃ t, exec .ret s = .next t ∧ t.sp.val + 1 = s.sp.val ∧
      (∀ k : Fin 16, k.val = t.sp.val → t.pc = s.stk[k]) ∧ t.stk = s.stk ∧
      RegsKept s t [] ∧ MemKept s t ∧ t.i = s.i ∧ TimersKeysKept s t ∧ FbKept s t ∧ OwnKept s t) ∧
    (s.sp.val = 0 → ∃ t, exec .ret s = .next t ∧ Squashed s t .stackUnderflow)

/-- Rules R81, R83: a return straight after a call that had room comes back to the instruction after the call, with
`SP` as before. -/
def Obligations.ReturnUndoesCall : Prop :=
  ∀ (s : State) (addr : Addr), s.sp.val < 16 →
    ∃ t u, exec (.call addr) s = .next t ∧ exec .ret t = .next u ∧ u.pc = s.pc ∧ u.sp = s.sp

/-- Rules R85, R86: the compare-skips with an immediate add 2 to the advanced `pc`, modulo 65536 (rule R13, the spec's
decision D14: assumption 12), when the comparison holds, and change nothing else. -/
def Obligations.SkipsWithImmediate : Prop :=
  ∀ (s : State) (x : Reg) (kk : Byte),
    (∃ t, exec (.seImm x kk) s = .next t ∧ FrameRegs s t [] ∧
      t.pc.toNat = if s.reg x = kk then (s.pc.toNat + 2) % 65536 else s.pc.toNat) ∧
    (∃ t, exec (.sneImm x kk) s = .next t ∧ FrameRegs s t [] ∧
      t.pc.toNat = if s.reg x = kk then s.pc.toNat else (s.pc.toNat + 2) % 65536)

/-- Rules R87, R88: the compare-skips between two registers, modulo 65536 as rule R13 has it (the spec's decision D14:
assumption 12). -/
def Obligations.SkipsBetweenRegisters : Prop :=
  ∀ (s : State) (x y : Reg),
    (∃ t, exec (.seReg x y) s = .next t ∧ FrameRegs s t [] ∧
      t.pc.toNat = if s.reg x = s.reg y then (s.pc.toNat + 2) % 65536 else s.pc.toNat) ∧
    (∃ t, exec (.sneReg x y) s = .next t ∧ FrameRegs s t [] ∧
      t.pc.toNat = if s.reg x = s.reg y then s.pc.toNat else (s.pc.toNat + 2) % 65536)

/-! ## Registers, arithmetic, logic -/

/-- Rules R100, R102: load-imm and move give register `x` the immediate or register `y`; no other state changes. -/
def Obligations.LoadImmediateAndMove : Prop :=
  ∀ (s : State) (x y : Reg) (kk : Byte),
    (∃ t, exec (.ldImm x kk) s = .next t ∧ t.reg x = kk ∧ t.pc = s.pc ∧ FrameRegs s t [x]) ∧
    (∃ t, exec (.ldReg x y) s = .next t ∧ t.reg x = s.reg y ∧ t.pc = s.pc ∧ FrameRegs s t [x])

/-- Rule R101: add-imm wraps modulo 256 and writes no flag: register 15 is kept unless it is `x`. -/
def Obligations.AddImmediateWrapsWithoutFlag : Prop :=
  ∀ (s : State) (x : Reg) (kk : Byte), ∃ t, exec (.addImm x kk) s = .next t ∧
    (t.reg x).toNat = ((s.reg x).toNat + kk.toNat) % 256 ∧ t.pc = s.pc ∧ FrameRegs s t [x]

/-- Rules R103, R104, R105: OR, AND and XOR bit by bit; no flag. -/
def Obligations.BitwiseOperations : Prop :=
  ∀ (s : State) (x y : Reg),
    (∃ t, exec (.or x y) s = .next t ∧ t.pc = s.pc ∧ FrameRegs s t [x] ∧
      ∀ k < 8, (t.reg x).getLsbD k = ((s.reg x).getLsbD k || (s.reg y).getLsbD k)) ∧
    (∃ t, exec (.and x y) s = .next t ∧ t.pc = s.pc ∧ FrameRegs s t [x] ∧
      ∀ k < 8, (t.reg x).getLsbD k = ((s.reg x).getLsbD k && (s.reg y).getLsbD k)) ∧
    (∃ t, exec (.xor x y) s = .next t ∧ t.pc = s.pc ∧ FrameRegs s t [x] ∧
      ∀ k < 8, (t.reg x).getLsbD k = ((s.reg x).getLsbD k != (s.reg y).getLsbD k))

/-- Rule R106: add-reg stores the sum modulo 256 in `x` (also when `x` is 15), and register 15 is the carry when it is
not `x`. -/
def Obligations.AddRegisterSumAndCarry : Prop :=
  ∀ (s : State) (x y : Reg), ∃ t, exec (.addReg x y) s = .next t ∧ t.pc = s.pc ∧ FrameRegs s t [x, 15] ∧
    (t.reg x).toNat = ((s.reg x).toNat + (s.reg y).toNat) % 256 ∧
    (x ≠ 15 → (t.reg 15).toNat = if (s.reg x).toNat + (s.reg y).toNat > 255 then 1 else 0)

/-- Rules R107, R108: sub-reg and subn-reg wrap modulo 256, and register 15, when it is not `x`, is 1 exactly when the
minuend is STRICTLY greater. That both operands are read before the flag is written (`x` or `y` is 15) is rule R113, the
spec's decision D15 (assumption 12). -/
def Obligations.SubtractionsAndStrictFlag : Prop :=
  ∀ (s : State) (x y : Reg),
    (∃ t, exec (.sub x y) s = .next t ∧ t.pc = s.pc ∧ FrameRegs s t [x, 15] ∧
      (t.reg x).toNat = ((s.reg x).toNat + 256 - (s.reg y).toNat) % 256 ∧
      (x ≠ 15 → (t.reg 15).toNat = if (s.reg x).toNat > (s.reg y).toNat then 1 else 0)) ∧
    (∃ t, exec (.subn x y) s = .next t ∧ t.pc = s.pc ∧ FrameRegs s t [x, 15] ∧
      (t.reg x).toNat = ((s.reg y).toNat + 256 - (s.reg x).toNat) % 256 ∧
      (x ≠ 15 → (t.reg 15).toNat = if (s.reg y).toNat > (s.reg x).toNat then 1 else 0))

/-- Rules R109, R110: the shifts move register `x` by one, whatever the `y` field holds, and register 15, when it is
not `x`, is the bit shifted out as 0 or 1. -/
def Obligations.ShiftsAndShiftedOutBit : Prop :=
  ∀ (s : State) (x y : Reg),
    (∃ t, exec (.shr x y) s = .next t ∧ t.pc = s.pc ∧ FrameRegs s t [x, 15] ∧
      (t.reg x).toNat = (s.reg x).toNat / 2 ∧ (x ≠ 15 → (t.reg 15).toNat = (s.reg x).toNat % 2)) ∧
    (∃ t, exec (.shl x y) s = .next t ∧ t.pc = s.pc ∧ FrameRegs s t [x, 15] ∧
      (t.reg x).toNat = (s.reg x).toNat * 2 % 256 ∧ (x ≠ 15 → (t.reg 15).toNat = (s.reg x).toNat / 128))

/-- Rule R110's round trip (the source's property S3): right then left, and left then right, give the value back but for
the bit shifted out, which is the first flag. -/
def Obligations.ShiftRoundTripLosesOnlyTheFlaggedBit : Prop :=
  ∀ (s : State) (x y z : Reg), x ≠ 15 →
    (∃ t u, exec (.shr x y) s = .next t ∧ exec (.shl x z) t = .next u ∧
      (u.reg x).toNat + (t.reg 15).toNat = (s.reg x).toNat) ∧
    (∃ t u, exec (.shl x y) s = .next t ∧ exec (.shr x z) t = .next u ∧
      (u.reg x).toNat + 128 * (t.reg 15).toNat = (s.reg x).toNat)

/-- Rule R111: register `x` is the draw AND `kk`; one draw is consumed and nothing else changes. The draw is a free value
(assumption 1), so this holds for every draw. -/
def Obligations.RandomAndMasksAFreshDraw : Prop :=
  ∀ (s : State) (x : Reg) (kk : Byte), ∃ t, exec (.rnd x kk) s = .next t ∧ t.reg x = Config.rnd s.draws &&& kk ∧
    (∀ k < 8, kk.getLsbD k = false → (t.reg x).getLsbD k = false) ∧
    t.draws = s.draws + 1 ∧ t.pc = s.pc ∧ FrameRegs s { t with draws := s.draws } [x]

/-! ## Framebuffer -/

/-- Rule R120: every cell is off and nothing else changes. -/
def Obligations.ClearScreenTurnsEveryCellOff : Prop :=
  ∀ s : State, ∃ t, exec .cls s = .next t ∧ (∀ i, t.fbAt i = false) ∧ t.pc = s.pc ∧ RegsKept s t [] ∧ MemKept s t ∧
    t.i = s.i ∧ StackKept s t ∧ TimersKeysKept s t ∧ OwnKept s t

/-- Rules R121, R122: when the `n` bytes at `I` lie in memory, every cell of the screen is inverted exactly if the sprite
covers it with an on bit (origin wrapped, extent clipped: the spec's decision D8), register 15 is 1 exactly when a
covered cell was on, and nothing else changes. With `n = 0` nothing is checked and the flag is cleared (the spec's
decision D33), and with `x` or `y` 15 the origin is register 15 as it was before that (the spec's decision D15):
assumption 12. -/
def Obligations.DrawSpriteInvertsCoveredCells : Prop :=
  ∀ (s : State) (x y : Reg) (n : Fin 16), n.val = 0 ∨ s.i.toNat + n.val ≤ 4096 →
    ∃ t, exec (.drw x y n) s = .next t ∧
      (∀ px < Config.fbW, ∀ py < Config.fbH,
        (SpriteCovers s x y n.val px py → t.cell px py = !(s.cell px py)) ∧
        (¬ SpriteCovers s x y n.val px py → t.cell px py = s.cell px py)) ∧
      ((∃ px < Config.fbW, ∃ py < Config.fbH, SpriteCovers s x y n.val px py ∧ s.cell px py = true) →
        t.reg 15 = 1) ∧
      (¬ (∃ px < Config.fbW, ∃ py < Config.fbH, SpriteCovers s x y n.val px py ∧ s.cell px py = true) →
        t.reg 15 = 0) ∧
      RegsKept s t [15] ∧ MemKept s t ∧ t.pc = s.pc ∧ t.i = s.i ∧ StackKept s t ∧ TimersKeysKept s t ∧ OwnKept s t

/-- Rules R121, R155 (the spec's decision D33): when one of the `n` bytes lies at 4096 or above, draw-sprite is squashed
and reports `MemRange` with the first such address: not even the flag is cleared. -/
def Obligations.DrawSpriteOutsideMemoryIsSquashed : Prop :=
  ∀ (s : State) (x y : Reg) (n : Fin 16), n.val ≠ 0 → 4096 < s.i.toNat + n.val →
    ∃ t, exec (.drw x y n) s = .next t ∧ Squashed s t (.memRange (max s.i.toNat 4096))

/-- Rule R123, the double-draw property: the same sprite drawn twice at the same place restores every cell, and the
second flag is 1 exactly when the first draw turned a cell on. `x` and `y` other than 15, as the rule asks. -/
def Obligations.DrawingTwiceRestoresTheFramebuffer : Prop :=
  ∀ (s : State) (x y : Reg) (n : Fin 16), x ≠ 15 → y ≠ 15 → n.val = 0 ∨ s.i.toNat + n.val ≤ 4096 →
    ∃ t u, exec (.drw x y n) s = .next t ∧ exec (.drw x y n) t = .next u ∧ (∀ px py, u.cell px py = s.cell px py) ∧
      (u.reg 15 = 1 ↔ ∃ px < Config.fbW, ∃ py < Config.fbH, s.cell px py = false ∧ t.cell px py = true) ∧
      (u.reg 15 = 0 ↔ ¬ ∃ px < Config.fbW, ∃ py < Config.fbH, s.cell px py = false ∧ t.cell px py = true)

/-! ## Keypad and timers -/

/-- Rules R130, R131, R157: with `V[x] ≤ 15` the key skips add 2 to the advanced `pc` when the slot is pressed, or not
pressed, and change nothing else; with `V[x] > 15` both are squashed and report (the spec's decision D18). The skip is
modulo 65536 (rule R13, the spec's decision D14). Assumption 12. -/
def Obligations.KeySkips : Prop :=
  ∀ (s : State) (x : Reg),
    ((s.reg x).toNat ≤ 15 → ∃ t u, exec (.skp x) s = .next t ∧ exec (.sknp x) s = .next u ∧
      t.pc.toNat = (if keyDown s (s.reg x).toNat = true then (s.pc.toNat + 2) % 65536 else s.pc.toNat) ∧
      u.pc.toNat = (if keyDown s (s.reg x).toNat = true then s.pc.toNat else (s.pc.toNat + 2) % 65536) ∧
      FrameRegs s t [] ∧ FrameRegs s u []) ∧
    (15 < (s.reg x).toNat → ∃ t u, exec (.skp x) s = .next t ∧ exec (.sknp x) s = .next u ∧
      Squashed s t (.keyRange (s.reg x)) ∧ Squashed s u (.keyRange (s.reg x)))

/-- Rule R132: with a key pressed register `x` is the lowest pressed slot, and `pc` stays advanced; with none pressed
`pc` goes back to the instruction's own address, modulo 65536 (rule R13, the spec's decision D14: assumption 12), and the
whole step changes nothing but its report output, which is the model's own field (assumption 5). -/
def Obligations.WaitForKey : Prop :=
  ∀ (s : State) (x : Reg),
    (∀ k < 16, keyDown s k = true → (∀ j < k, keyDown s j = false) →
      ∃ t, exec (.ldVxK x) s = .next t ∧ (t.reg x).toNat = k ∧ t.pc = s.pc ∧ FrameRegs s t [x]) ∧
    ((∀ k < 16, keyDown s k = false) →
      (∃ t, exec (.ldVxK x) s = .next t ∧ t.pc.toNat = (s.pc.toNat + 65534) % 65536 ∧ FrameRegs s t []) ∧
      (s.fetch = .instr (.ldVxK x) →
        instrStep s = .next { s with report := { error := .noError, fetchedFrom := s.pc } }))

/-- Rules R133, R134, R135: the three timer instructions copy a timer to a register or a register to a timer; no other
state changes. -/
def Obligations.TimerInstructions : Prop :=
  ∀ (s : State) (x : Reg),
    (∃ t, exec (.ldVxDT x) s = .next t ∧ t.reg x = s.dt ∧ t.pc = s.pc ∧ FrameRegs s t [x]) ∧
    (∃ t, exec (.ldDTVx x) s = .next t ∧ t.dt = s.reg x ∧ t.pc = s.pc ∧ FrameRegs s { t with dt := s.dt } []) ∧
    (∃ t, exec (.ldSTVx x) s = .next t ∧ t.st = s.reg x ∧ t.pc = s.pc ∧ FrameRegs s { t with st := s.st } [])

/-- Rules R163, R167, R187: after a step that is not the last of its cycle operation, timers and keypad are as the
instruction left them; after the last one both timers are one lower, floored at 0, the host may have written the keypad
(a free input, the model's own, whose index goes up: assumption 2), and a new cycle operation begins. Every other field
is as the instruction left it. -/
def Obligations.TimersTickOnceAtTheEndOfACycle : Prop :=
  ∀ s t : State, instrStep s = .next t → ∃ u, step s = .next u ∧
    u.dt.toNat = (if t.stepsDone + 1 < Config.batchSize then t.dt.toNat else t.dt.toNat - 1) ∧
    u.st.toNat = (if t.stepsDone + 1 < Config.batchSize then t.st.toNat else t.st.toNat - 1) ∧
    u.key = (if t.stepsDone + 1 < Config.batchSize then t.key else (Config.keypadWrite t.keyWrites).getD t.key) ∧
    u.stepsDone = (if t.stepsDone + 1 < Config.batchSize then t.stepsDone + 1 else 0) ∧
    u.cycles = (if t.stepsDone + 1 < Config.batchSize then t.cycles else t.cycles + 1) ∧
    u.keyWrites = (if t.stepsDone + 1 < Config.batchSize then t.keyWrites else t.keyWrites + 1) ∧
    u.v = t.v ∧ u.i = t.i ∧ u.pc = t.pc ∧ StackKept t u ∧ MemKept t u ∧ FbKept t u ∧ u.report = t.report ∧
    u.draws = t.draws ∧ u.romLoaded = t.romLoaded

/-- Rule R163: "DT - 1 if DT > 0 else 0", and the same for `ST`, both together, and nothing else. -/
def Obligations.TimerTickFloorsAtZero : Prop :=
  ∀ s : State, (timerTick s).dt.toNat = s.dt.toNat - 1 ∧ (timerTick s).st.toNat = s.st.toNat - 1 ∧
    timerTick s = { s with dt := (timerTick s).dt, st := (timerTick s).st }

/-! ## Address register and memory -/

/-- Rule R140 (supplied by the spec's decision D3): `I <- zext_16(addr)`, and nothing else changes. -/
def Obligations.LoadIndexSetsI : Prop :=
  ∀ (s : State) (addr : Addr), ∃ t, exec (.ldI addr) s = .next t ∧ t.i.toNat = addr.toNat ∧ t.pc = s.pc ∧
    FrameRegs s { t with i := s.i } []

/-- Rule R141: `I <- (I + V[x]) mod 65536`; no flag, and nothing else changes. -/
def Obligations.AddToIndexWraps : Prop :=
  ∀ (s : State) (x : Reg), ∃ t, exec (.addI x) s = .next t ∧
    t.i.toNat = (s.i.toNat + (s.reg x).toNat) % 65536 ∧ t.pc = s.pc ∧ FrameRegs s { t with i := s.i } []

/-- Rules R142, R157: for a digit 0 to 15, `I <- 0x050 + 5 * d` and nothing else changes; for a larger value the
instruction is squashed and reports (the spec's decision D17). -/
def Obligations.FontAddressOrReport : Prop :=
  ∀ (s : State) (x : Reg),
    ((s.reg x).toNat ≤ 15 → ∃ t, exec (.ldF x) s = .next t ∧ t.i.toNat = 0x050 + 5 * (s.reg x).toNat ∧
      t.pc = s.pc ∧ FrameRegs s { t with i := s.i } []) ∧
    (15 < (s.reg x).toNat → ∃ t, exec (.ldF x) s = .next t ∧ Squashed s t (.fontRange (s.reg x)))

/-- Rule R143: with the three bytes at `I` in memory, they become the hundreds, tens and ones digit of `V[x]` and every
other byte and all other state is kept; otherwise no byte is written and `MemRange` is reported. -/
def Obligations.StoreBcdWritesThreeDigits : Prop :=
  ∀ (s : State) (x : Reg), s.mem.wf = true →
    (s.i.toNat + 3 ≤ 4096 → ∃ t, exec (.ldB x) s = .next t ∧
      (t.readMem s.i.toNat).toNat = (s.reg x).toNat / 100 ∧
      (t.readMem (s.i.toNat + 1)).toNat = (s.reg x).toNat / 10 % 10 ∧
      (t.readMem (s.i.toNat + 2)).toNat = (s.reg x).toNat % 10 ∧
      MemKeptOutside s t (ea s 0) 3 ∧ RegsKept s t [] ∧ t.pc = s.pc ∧ t.i = s.i ∧ StackKept s t ∧
      TimersKeysKept s t ∧ FbKept s t ∧ OwnKept s t) ∧
    (4096 < s.i.toNat + 3 → ∃ t, exec (.ldB x) s = .next t ∧ Squashed s t (.memRange (max s.i.toNat 4096)))

/-- Rule R144: with the `x + 1` bytes at `I` in memory, byte `k` of them becomes `V[k]` and every other byte and all other
state is kept; otherwise no byte is written and `MemRange` is reported. -/
def Obligations.StoreRegistersWritesUpToX : Prop :=
  ∀ (s : State) (x : Reg), s.mem.wf = true →
    (s.i.toNat + x.val ≤ 4095 → ∃ t, exec (.ldIVx x) s = .next t ∧
      (∀ k : Reg, k ≤ x → t.readMem (s.i.toNat + k.val) = s.reg k) ∧
      MemKeptOutside s t (ea s 0) (x.val + 1) ∧ RegsKept s t [] ∧ t.pc = s.pc ∧ t.i = s.i ∧ StackKept s t ∧
      TimersKeysKept s t ∧ FbKept s t ∧ OwnKept s t) ∧
    (4095 < s.i.toNat + x.val → ∃ t, exec (.ldIVx x) s = .next t ∧ Squashed s t (.memRange (max s.i.toNat 4096)))

/-- Rule R145: with the `x + 1` bytes at `I` in memory, `V[k]` becomes byte `k` of them for `k ≤ x`, and registers above
`x` and all other state are kept; otherwise no register is written and `MemRange` is reported. -/
def Obligations.LoadRegistersReadsUpToX : Prop :=
  ∀ (s : State) (x : Reg),
    (s.i.toNat + x.val ≤ 4095 → ∃ t, exec (.ldVxI x) s = .next t ∧
      (∀ k : Reg, t.reg k = if k ≤ x then s.readMem (s.i.toNat + k.val) else s.reg k) ∧
      MemKept s t ∧ t.pc = s.pc ∧ t.i = s.i ∧ StackKept s t ∧ TimersKeysKept s t ∧ FbKept s t ∧ OwnKept s t) ∧
    (4095 < s.i.toNat + x.val → ∃ t, exec (.ldVxI x) s = .next t ∧ Squashed s t (.memRange (max s.i.toNat 4096)))

/-- Rule R146: registers stored by store-registers come back bit for bit when loaded with the same `x` and `I` from the
same memory, also when the registers were changed in between. -/
def Obligations.LoadAfterStoreRecoversRegisters : Prop :=
  ∀ (s : State) (x : Reg), s.mem.wf = true → s.i.toNat + x.val ≤ 4095 →
    ∃ t, exec (.ldIVx x) s = .next t ∧ ∀ u : State, u.mem = t.mem → u.i = t.i →
      ∃ w, exec (.ldVxI x) u = .next w ∧ ∀ k : Reg, k ≤ x → w.reg k = s.reg k

/-- Rule R51 (the spec's decision D23): a word stored by store-registers is the word the very next fetch at its address
reads. -/
def Obligations.StoredWordIsTheWordFetched : Prop :=
  ∀ (s : State) (x k l : Reg), s.mem.wf = true → s.i.toNat + x.val ≤ 4095 → l.val = k.val + 1 → l ≤ x →
    s.pc.toNat = s.i.toNat + k.val →
    ∃ t, exec (.ldIVx x) s = .next t ∧ t.fetchError = none ∧ t.fetchWord = wordOfBytes (s.reg k) (s.reg l)

/-! ## Whole-machine rules -/

/-- Rules R10 to R22, R28, R112, R124: which instructions write what. `I`, the stack, memory, the timers, the
framebuffer and the draws are each changed by the named instructions only, the keypad by none. -/
def Obligations.OnlyTheNamedInstructionsWriteEachPiece : Prop :=
  ∀ (i : Instr) (s t : State), exec i s = .next t →
    (t.i ≠ s.i → (∃ a, i = .ldI a) ∨ (∃ x, i = .addI x) ∨ (∃ x, i = .ldF x)) ∧
    (t.stk ≠ s.stk → ∃ a, i = .call a) ∧
    (t.sp ≠ s.sp → i = .ret ∨ ∃ a, i = .call a) ∧
    (t.mem ≠ s.mem → (∃ x, i = .ldB x) ∨ (∃ x, i = .ldIVx x)) ∧
    (t.dt ≠ s.dt → ∃ x, i = .ldDTVx x) ∧
    (t.st ≠ s.st → ∃ x, i = .ldSTVx x) ∧
    (t.fb ≠ s.fb → i = .cls ∨ ∃ x y n, i = .drw x y n) ∧
    (t.draws ≠ s.draws → ∃ x kk, i = .rnd x kk) ∧
    t.key = s.key

/-- Rule R11: an instruction that does not name register 15 as its destination writes it only if it is add-reg, sub-reg,
subn-reg, a shift or draw-sprite, and then writes exactly 0 or 1. Load-registers names register 15 when its `x` is 15. -/
def Obligations.OnlyTheFlagInstructionsWriteTheFlagOnTheSide : Prop :=
  ∀ (i : Instr) (s t : State), exec i s = .next t → t.reg 15 ≠ s.reg 15 →
    ((t.reg 15 = 0 ∨ t.reg 15 = 1) ∧
      ((∃ x y, i = .addReg x y) ∨ (∃ x y, i = .sub x y) ∨ (∃ x y, i = .subn x y) ∨ (∃ x y, i = .shr x y) ∨
        (∃ x y, i = .shl x y) ∨ (∃ x y n, i = .drw x y n))) ∨
    (∃ y, i = .addReg 15 y ∨ i = .sub 15 y ∨ i = .subn 15 y ∨ i = .shr 15 y ∨ i = .shl 15 y ∨ i = .ldReg 15 y ∨
      i = .or 15 y ∨ i = .and 15 y ∨ i = .xor 15 y) ∨
    (∃ kk, i = .ldImm 15 kk ∨ i = .addImm 15 kk ∨ i = .rnd 15 kk) ∨
    i = .ldVxDT 15 ∨ i = .ldVxK 15 ∨ i = .ldVxI 15

/-- Rule R151 (the spec's decision D11): a step that reports an error has changed nothing but `pc`, which is advanced by
2 (modulo 65536: the spec's decision D14), and the report output: no register, flag, stack entry, memory byte, timer,
cell or draw. -/
def Obligations.AStepThatReportsHasNoOtherEffect : Prop :=
  ∀ s t : State, instrStep s = .next t → t.report.error ≠ .noError →
    t = { s with pc := s.pc + 2, report := t.report } ∧ t.report.fetchedFrom = s.pc

/-- Rules R24, R152, R158, R165: no instruction step reads the report output or the model's own count of steps, count of
cycles, index of keypad writes and mark of the ROM load (assumptions 2, 5, 6, 16): from two states that differ only there
it answers states that agree in everything else. The index of draws is not among them: random-and reads it
(assumption 1). -/
def Obligations.StepsDoNotReadTheReportOrTheHostsCounts : Prop :=
  ∀ (s t : State) (r : StepReport) (n c k : Nat) (b : Bool), instrStep s = .next t →
    instrStep { s with report := r, stepsDone := n, cycles := c, keyWrites := k, romLoaded := b } =
      .next { t with stepsDone := n, cycles := c, keyWrites := k, romLoaded := b }

/-! ## The cycle operation and the host's interfaces -/

/-- Rules R152, R166, R184, R187: begun between two cycle operations, after a ROM load, a cycle operation of `n` steps
always ends, with exactly `n` reports, and leaves the machine between cycles again; begun inside a cycle it is refused
(rule R169), and so it is before a ROM load (the refusals' names are the model's: assumptions 14, 16). -/
def Obligations.CycleRunsToCompletion : Prop :=
  ∀ (n : Nat) (s : State),
    (s.stepsDone = 0 → s.romLoaded = true →
      ∃ t reports, cycleOf n s = .next (t, reports) ∧ reports.length = n ∧ t.stepsDone = 0 ∧ t.romLoaded = true) ∧
    (s.stepsDone = 0 → s.romLoaded = false → cycleOf n s = .refused .noRomLoaded) ∧
    (s.stepsDone ≠ 0 → cycleOf n s = .refused .hostInsideCycle)

/-- Rules R163, R187: from a boundary between cycles of a loaded machine, `BATCH_SIZE` steps of the running machine are
one cycle operation followed by the host's optional keypad write (the model's own way of giving the host its turn:
assumptions 2, 6). -/
def Obligations.BatchSizeStepsAreOneCycle : Prop :=
  ∀ s : State, s.stepsDone = 0 → s.romLoaded = true →
    ∃ t reports, cycle s = .next (t, reports) ∧ reports.length = Config.batchSize ∧
      runSteps Config.batchSize s = .next (keypadInput t)

/-- Rule R136 (the batch runs its remaining steps: the spec's decision D27): a cycle operation that begins at a
wait-for-key with no key pressed never leaves it: after the whole batch only the timers have ticked, and no step has
reported an error. -/
def Obligations.WaitingCycleOnlyTicksTheTimers : Prop :=
  ∀ (n : Nat) (s : State) (x : Reg), s.stepsDone = 0 → s.romLoaded = true → s.fetch = .instr (.ldVxK x) →
    (∀ k < 16, keyDown s k = false) →
    ∃ t reports, cycleOf n s = .next (t, reports) ∧ reports.length = n ∧
    t = { timerTick s with cycles := s.cycles + 1, report := t.report } ∧ ∀ r ∈ reports, r.error = .noError

/-- Rules R184, R185, R188 (the fit: the spec's decision D25): between cycles, before the first one and with no ROM
loaded, a ROM that fits is copied verbatim upward from 0x200 and nothing else changes but the model's mark of the load; a
longer one is refused whole. A load after the first cycle, or a second load, is refused (rules R166, R188; the names are
the model's: assumptions 14, 16). -/
def Obligations.RomLoadCopiesOrRefuses : Prop :=
  ∀ (s : State) (rom : List Byte), s.mem.wf = true → s.stepsDone = 0 →
    (s.cycles = 0 → s.romLoaded = false → rom.length ≤ 3584 →
      ∃ t, hostLoadRom rom s = .next t ∧ t = { s with mem := t.mem, romLoaded := true } ∧
        (∀ k, ∀ h : k < rom.length, t.readMem (0x200 + k) = rom[k]) ∧ MemKeptOutside s t 0x200 rom.length) ∧
    (s.cycles = 0 → s.romLoaded = false → 3584 < rom.length →
      hostLoadRom rom s = .refused (.romTooLarge rom.length)) ∧
    (s.cycles = 0 → s.romLoaded = true → hostLoadRom rom s = .refused .romAlreadyLoaded) ∧
    (s.cycles ≠ 0 → hostLoadRom rom s = .refused .loadAfterStart)

/-- Rule R168: between cycles the framebuffer read gives the `FB_W × FB_H` cells in index order, row 0 left to right and
then row 1, each with all bits set for on and zero for off. -/
def Obligations.FramebufferReadPresentsEveryCell : Prop :=
  ∀ s : State, s.stepsDone = 0 →
    ∃ cells, hostReadFramebuffer s = .next cells ∧ cells.length = Config.fbW * Config.fbH ∧
      ∀ px < Config.fbW, ∀ py < Config.fbH, cells[py * Config.fbW + px]? =
        some (if s.cell px py = true then BitVec.allOnes Config.cellBits else 0)

/-- Rules R52, R166 to R169, R180, R187: between cycles the host may set the keypad to any pattern, and a reset gives the
reset state again (the model's indices of free inputs go on); inside a cycle none of the five acts of rule R166 has a
meaning, by name (assumption 14). -/
def Obligations.HostActsOnlyBetweenCycles : Prop :=
  ∀ (s : State) (k : BitVec 16) (rom : List Byte),
    (s.stepsDone = 0 → hostWriteKeypad k s = .next { s with key := k } ∧
      hostReset s = .next { State.reset with draws := s.draws, keyWrites := s.keyWrites }) ∧
    (s.stepsDone ≠ 0 → hostReset s = .refused .hostInsideCycle ∧ hostLoadRom rom s = .refused .hostInsideCycle ∧
      hostWriteKeypad k s = .refused .hostInsideCycle ∧ cycle s = .refused .hostInsideCycle ∧
      hostReadFramebuffer s = .refused .hostInsideCycle)

/-- Rules R166, R184, R187: each act of the host, where it is usable, answers a state that meets the machine's invariant
again (the invariant's form is the model's: assumptions 6, 8). -/
def Obligations.HostActsKeepInvariant : Prop :=
  ∀ s : State, s.Inv → s.stepsDone = 0 →
    (∃ t, hostReset s = .next t ∧ t.Inv) ∧
    (∀ k, ∃ t, hostWriteKeypad k s = .next t ∧ t.Inv) ∧
    (∀ rom, s.cycles = 0 → s.romLoaded = false → rom.length ≤ 3584 → ∃ t, hostLoadRom rom s = .next t ∧ t.Inv) ∧
    (s.romLoaded = true → ∃ t reports, cycle s = .next (t, reports) ∧ t.Inv)

/-- Rules R183, R188: from every state between cycles, a run (reset, one load of a ROM that fits, then a round for each
optional keypad write) answers: one observation a round, each with the `BATCH_SIZE` reports of its cycle and all the
cells, and the state after the last cycle, which is between cycles. -/
def Obligations.RunObservesEveryRound : Prop :=
  ∀ (s : State) (rom : List Byte) (ks : List (Option (BitVec 16))), s.stepsDone = 0 → rom.length ≤ 3584 →
    ∃ t obs, hostRun rom ks s = .next (t, obs) ∧ obs.length = ks.length ∧ t.stepsDone = 0 ∧ t.cycles = ks.length ∧
      ∀ o ∈ obs, o.reports.length = Config.batchSize ∧ o.framebuffer.length = Config.fbW * Config.fbH

/-- Rules R167, R188: a round is the optional keypad write, the cycle operation, and what the framebuffer read then
gives. -/
def Obligations.RoundIsKeypadWriteCycleAndRead : Prop :=
  ∀ (s : State) (k : Option (BitVec 16)), s.stepsDone = 0 → s.romLoaded = true →
    ∃ t reports cells, cycle { s with key := k.getD s.key } = .next (t, reports) ∧
      hostReadFramebuffer t = .next cells ∧
      hostRound k s = .next (t, { reports := reports, framebuffer := cells })
end

