-- ==== Sys2Proof/Laws/Encoding.lean ====
section
/-! SUPPORT. The fields of an encoded word are the fields it was made from (rules R6, R42, R61). -/

namespace Sys2Proof

@[simp] theorem nibFin_finNib (k : Fin 16) : nibFin (finNib k) = k := by
  revert k; decide

@[simp] theorem finNib_nibFin (n : Nibble) : finNib (nibFin n) = n := by
  revert n; decide

theorem toNat_finNib (k : Fin 16) : (finNib k).toNat = k.val := by
  revert k; decide

/-! The fields of a word as numbers. -/

theorem toNat_n1 (w : Word) : (n1 w).toNat = w.toNat / 4096 := by
  have := w.isLt
  simp [n1, BitVec.extractLsb'_toNat, Nat.shiftRight_eq_div_pow]; omega
theorem toNat_n2 (w : Word) : (n2 w).toNat = w.toNat / 256 % 16 := by
  simp [n2, BitVec.extractLsb'_toNat, Nat.shiftRight_eq_div_pow]
theorem toNat_n3 (w : Word) : (n3 w).toNat = w.toNat / 16 % 16 := by
  simp [n3, BitVec.extractLsb'_toNat, Nat.shiftRight_eq_div_pow]
theorem toNat_n4 (w : Word) : (n4 w).toNat = w.toNat % 16 := by
  simp [n4, BitVec.extractLsb'_toNat]
theorem toNat_opKK (w : Word) : (opKK w).toNat = w.toNat % 256 := by
  simp [opKK, BitVec.extractLsb'_toNat]
theorem toNat_opAddr (w : Word) : (opAddr w).toNat = w.toNat % 4096 := by
  simp [opAddr, BitVec.extractLsb'_toNat]

/-! The words of the formats as numbers (rule R61). -/

theorem toNat_nibbles (a b c d : Nibble) :
    (a ++ b ++ c ++ d : Word).toNat = a.toNat * 4096 + b.toNat * 256 + c.toNat * 16 + d.toNat := by
  have hb := b.isLt
  have hc := c.isLt
  have hd := d.isLt
  simp only [BitVec.toNat_append]
  rw [← Nat.shiftLeft_add_eq_or_of_lt hd, ← Nat.shiftLeft_add_eq_or_of_lt hc, ← Nat.shiftLeft_add_eq_or_of_lt hb]
  simp only [Nat.shiftLeft_eq]
  omega

theorem toNat_nibbles_byte (a b : Nibble) (c : Byte) :
    (a ++ b ++ c : Word).toNat = a.toNat * 4096 + b.toNat * 256 + c.toNat := by
  have hb := b.isLt
  have hc := c.isLt
  simp only [BitVec.toNat_append]
  rw [← Nat.shiftLeft_add_eq_or_of_lt hc, ← Nat.shiftLeft_add_eq_or_of_lt hb, Nat.shiftLeft_eq, Nat.shiftLeft_eq]
  omega

theorem toNat_encNNN (v : Word) (a : Addr) : (encNNN v a).toNat = v.toNat / 4096 * 4096 + a.toNat := by
  have := a.isLt
  simp only [encNNN, BitVec.toNat_append]
  rw [← Nat.shiftLeft_add_eq_or_of_lt this, Nat.shiftLeft_eq, toNat_n1]

theorem toNat_encXKK (v : Word) (x : Reg) (kk : Byte) :
    (encXKK v x kk).toNat = v.toNat / 4096 * 4096 + x.val * 256 + kk.toNat := by
  rw [encXKK, toNat_nibbles_byte, toNat_n1, toNat_finNib]

theorem toNat_encX (v : Word) (x : Reg) :
    (encX v x).toNat = v.toNat / 4096 * 4096 + x.val * 256 + v.toNat % 256 := by
  rw [encX, toNat_nibbles_byte, toNat_n1, toNat_finNib, toNat_opKK]

theorem toNat_encXY (v : Word) (x y : Reg) :
    (encXY v x y).toNat = v.toNat / 4096 * 4096 + x.val * 256 + y.val * 16 + v.toNat % 16 := by
  rw [encXY, toNat_nibbles, toNat_n1, toNat_n4, toNat_finNib, toNat_finNib]

theorem toNat_encXYN (v : Word) (x y n : Fin 16) :
    (encXYN v x y n).toNat = v.toNat / 4096 * 4096 + x.val * 256 + y.val * 16 + n.val := by
  rw [encXYN, toNat_nibbles, toNat_n1, toNat_finNib, toNat_finNib, toNat_finNib]

/-! The operands of an encoded word (rule R61). -/

theorem val_opX (w : Word) : (opX w).val = w.toNat / 256 % 16 := toNat_n2 w
theorem val_opY (w : Word) : (opY w).val = w.toNat / 16 % 16 := toNat_n3 w
theorem val_opN (w : Word) : (opN w).val = w.toNat % 16 := toNat_n4 w

@[simp] theorem opAddr_encNNN (v : Word) (a : Addr) : opAddr (encNNN v a) = a := by
  apply BitVec.eq_of_toNat_eq; rw [toNat_opAddr, toNat_encNNN]; have := a.isLt; omega
@[simp] theorem opX_encXKK (v : Word) (x : Reg) (kk : Byte) : opX (encXKK v x kk) = x := by
  apply Fin.ext; rw [val_opX, toNat_encXKK]; have := kk.isLt; omega
@[simp] theorem opKK_encXKK (v : Word) (x : Reg) (kk : Byte) : opKK (encXKK v x kk) = kk := by
  apply BitVec.eq_of_toNat_eq; rw [toNat_opKK, toNat_encXKK]; have := kk.isLt; omega
@[simp] theorem opX_encX (v : Word) (x : Reg) : opX (encX v x) = x := by
  apply Fin.ext; rw [val_opX, toNat_encX]; omega
@[simp] theorem opX_encXY (v : Word) (x y : Reg) : opX (encXY v x y) = x := by
  apply Fin.ext; rw [val_opX, toNat_encXY]; omega
@[simp] theorem opY_encXY (v : Word) (x y : Reg) : opY (encXY v x y) = y := by
  apply Fin.ext; rw [val_opY, toNat_encXY]; omega
@[simp] theorem opX_encXYN (v : Word) (x y n : Fin 16) : opX (encXYN v x y n) = x := by
  apply Fin.ext; rw [val_opX, toNat_encXYN]; omega
@[simp] theorem opY_encXYN (v : Word) (x y n : Fin 16) : opY (encXYN v x y n) = y := by
  apply Fin.ext; rw [val_opY, toNat_encXYN]; omega
@[simp] theorem opN_encXYN (v : Word) (x y n : Fin 16) : opN (encXYN v x y n) = n := by
  apply Fin.ext; rw [val_opN, toNat_encXYN]; omega

/-! The rows of the opcode map (rules R63, R64). -/

theorem mem_allOps (o : Op) : o ∈ allOps := by cases o <;> decide

/-- No two rows overlap: their match values differ in a bit that both masks test. -/
theorem opRow_conflict : ∀ a ∈ allOps, ∀ b ∈ allOps, a ≠ b →
    ((opRow a).value ^^^ (opRow b).value) &&& (opRow a).mask &&& (opRow b).mask ≠ 0 := by decide

/-- A word matches at most one row. -/
theorem rowMatches_unique {a b : Op} {w : Word} (ha : rowMatches (opRow a) w = true)
    (hb : rowMatches (opRow b) w = true) : a = b := by
  by_contra h
  refine opRow_conflict a (mem_allOps a) b (mem_allOps b) h ?_
  simp only [rowMatches, beq_iff_eq] at ha hb
  rw [← ha, ← hb]
  ext k hk
  simp only [BitVec.getElem_and, BitVec.getElem_xor]
  cases w[k] <;> cases (opRow a).mask[k] <;> cases (opRow b).mask[k] <;> simp

/-- The decoder's search finds a row exactly if the word matches it. -/
theorem findOp_eq_some {w : Word} {o : Op} : findOp w = some o ↔ rowMatches (opRow o) w = true := by
  constructor
  · intro h
    exact List.find?_some (p := fun o => rowMatches (opRow o) w) h
  · intro h
    cases hf : findOp w with
    | none => exact absurd h (List.find?_eq_none.mp hf o (mem_allOps o))
    | some o' =>
      exact congrArg some (rowMatches_unique (List.find?_some (p := fun o => rowMatches (opRow o) w) hf) h)

/-- The decoder's search finds no row exactly if the word matches none. -/
theorem findOp_eq_none {w : Word} : findOp w = none ↔ ∀ o, rowMatches (opRow o) w = false := by
  simp [findOp, List.find?_eq_none, mem_allOps]

/-- Everything dispatch can answer (rule R68). -/
theorem select_eq_some {w : Word} {i : Instr} :
    select w = some i ↔ ∃ o, rowMatches (opRow o) w = true ∧ withOperands w o = i := by
  simp [select, findOp_eq_some]

theorem select_eq_none {w : Word} : select w = none ↔ ∀ o, rowMatches (opRow o) w = false := by
  simp [select, findOp_eq_none]

@[simp] theorem opOf_withOperands (w : Word) (o : Op) : opOf (withOperands w o) = o := by cases o <;> rfl

/-! What a row's mask tests: the leading nibble, and with it the trailing nibble or byte (rule R64). -/

theorem and_F000 (w : Word) : w &&& 0xF000 = encXKK w 0 0 := by
  apply BitVec.eq_of_getLsbD_eq
  intro k hk
  change _ = BitVec.getLsbD (n1 w ++ finNib 0 ++ (0 : Byte)) k
  rw [BitVec.getLsbD_append, BitVec.getLsbD_append]
  interval_cases k <;> simp [n1, finNib, -BitVec.getLsbD_eq_getElem]

theorem and_F00F (w : Word) : w &&& 0xF00F = encXY w 0 0 := by
  apply BitVec.eq_of_getLsbD_eq
  intro k hk
  change _ = BitVec.getLsbD (n1 w ++ finNib 0 ++ finNib 0 ++ n4 w) k
  rw [BitVec.getLsbD_append, BitVec.getLsbD_append, BitVec.getLsbD_append]
  interval_cases k <;> simp [n1, n4, finNib, -BitVec.getLsbD_eq_getElem]

theorem and_F0FF (w : Word) : w &&& 0xF0FF = encX w 0 := by
  apply BitVec.eq_of_getLsbD_eq
  intro k hk
  change _ = BitVec.getLsbD (n1 w ++ finNib 0 ++ opKK w) k
  rw [BitVec.getLsbD_append, BitVec.getLsbD_append]
  interval_cases k <;> simp [n1, opKK, finNib, -BitVec.getLsbD_eq_getElem]

theorem toNat_and_F000 (w : Word) : (w &&& 0xF000).toNat = w.toNat / 4096 * 4096 := by
  rw [and_F000, toNat_encXKK]; simp

theorem toNat_and_F00F (w : Word) : (w &&& 0xF00F).toNat = w.toNat / 4096 * 4096 + w.toNat % 16 := by
  rw [and_F00F, toNat_encXY]; simp

theorem toNat_and_F0FF (w : Word) : (w &&& 0xF0FF).toNat = w.toNat / 4096 * 4096 + w.toNat % 256 := by
  rw [and_F0FF, toNat_encX]; simp

/-! A word and its two bytes (rule R42). -/

theorem toNat_wordOfBytes (hi lo : Byte) : (wordOfBytes hi lo).toNat = hi.toNat * 256 + lo.toNat := by
  have := lo.isLt
  simp only [wordOfBytes, BitVec.toNat_append]
  rw [← Nat.shiftLeft_add_eq_or_of_lt this, Nat.shiftLeft_eq]
theorem toNat_hiByte (w : Word) : (hiByte w).toNat = w.toNat / 256 := by
  have := w.isLt
  simp [hiByte, BitVec.extractLsb'_toNat, Nat.shiftRight_eq_div_pow]; omega
theorem toNat_loByte (w : Word) : (loByte w).toNat = w.toNat % 256 := by
  simp [loByte, BitVec.extractLsb'_toNat]
@[simp] theorem wordOfBytes_hi_lo (w : Word) : wordOfBytes (hiByte w) (loByte w) = w := by
  apply BitVec.eq_of_toNat_eq; rw [toNat_wordOfBytes, toNat_hiByte, toNat_loByte]; omega
@[simp] theorem hiByte_wordOfBytes (hi lo : Byte) : hiByte (wordOfBytes hi lo) = hi := by
  apply BitVec.eq_of_toNat_eq; rw [toNat_hiByte, toNat_wordOfBytes]; have := lo.isLt; omega
@[simp] theorem loByte_wordOfBytes (hi lo : Byte) : loByte (wordOfBytes hi lo) = lo := by
  apply BitVec.eq_of_toNat_eq; rw [toNat_loByte, toNat_wordOfBytes]; have := lo.isLt; omega

end Sys2Proof
end

