-- ==== Sys2Proof/Laws/State.lean ====
section
/-! SUPPORT. Beside the state: what each update does to each field, true by unfolding, so that no later proof unfolds a
record update. -/

namespace Sys2Proof.Machine

variable (s : State)

/-! `setReg` -/

@[simp] theorem setReg_v (x : Reg) (b : Byte) : (s.setReg x b).v = s.v.set x b := rfl
@[simp] theorem setReg_i (x : Reg) (b : Byte) : (s.setReg x b).i = s.i := rfl
@[simp] theorem setReg_pc (x : Reg) (b : Byte) : (s.setReg x b).pc = s.pc := rfl
@[simp] theorem setReg_sp (x : Reg) (b : Byte) : (s.setReg x b).sp = s.sp := rfl
@[simp] theorem setReg_stk (x : Reg) (b : Byte) : (s.setReg x b).stk = s.stk := rfl
@[simp] theorem setReg_mem (x : Reg) (b : Byte) : (s.setReg x b).mem = s.mem := rfl
@[simp] theorem setReg_dt (x : Reg) (b : Byte) : (s.setReg x b).dt = s.dt := rfl
@[simp] theorem setReg_st (x : Reg) (b : Byte) : (s.setReg x b).st = s.st := rfl
@[simp] theorem setReg_key (x : Reg) (b : Byte) : (s.setReg x b).key = s.key := rfl
@[simp] theorem setReg_fb (x : Reg) (b : Byte) : (s.setReg x b).fb = s.fb := rfl
@[simp] theorem setReg_report (x : Reg) (b : Byte) : (s.setReg x b).report = s.report := rfl
@[simp] theorem setReg_stepsDone (x : Reg) (b : Byte) : (s.setReg x b).stepsDone = s.stepsDone := rfl
@[simp] theorem setReg_cycles (x : Reg) (b : Byte) : (s.setReg x b).cycles = s.cycles := rfl
@[simp] theorem setReg_draws (x : Reg) (b : Byte) : (s.setReg x b).draws = s.draws := rfl
@[simp] theorem setReg_keyWrites (x : Reg) (b : Byte) : (s.setReg x b).keyWrites = s.keyWrites := rfl
@[simp] theorem setReg_romLoaded (x : Reg) (b : Byte) : (s.setReg x b).romLoaded = s.romLoaded := rfl

/-! `setI` -/

@[simp] theorem setI_v (w : Word) : (s.setI w).v = s.v := rfl
@[simp] theorem setI_i (w : Word) : (s.setI w).i = w := rfl
@[simp] theorem setI_pc (w : Word) : (s.setI w).pc = s.pc := rfl
@[simp] theorem setI_sp (w : Word) : (s.setI w).sp = s.sp := rfl
@[simp] theorem setI_stk (w : Word) : (s.setI w).stk = s.stk := rfl
@[simp] theorem setI_mem (w : Word) : (s.setI w).mem = s.mem := rfl
@[simp] theorem setI_dt (w : Word) : (s.setI w).dt = s.dt := rfl
@[simp] theorem setI_st (w : Word) : (s.setI w).st = s.st := rfl
@[simp] theorem setI_key (w : Word) : (s.setI w).key = s.key := rfl
@[simp] theorem setI_fb (w : Word) : (s.setI w).fb = s.fb := rfl
@[simp] theorem setI_report (w : Word) : (s.setI w).report = s.report := rfl
@[simp] theorem setI_stepsDone (w : Word) : (s.setI w).stepsDone = s.stepsDone := rfl
@[simp] theorem setI_cycles (w : Word) : (s.setI w).cycles = s.cycles := rfl
@[simp] theorem setI_draws (w : Word) : (s.setI w).draws = s.draws := rfl
@[simp] theorem setI_keyWrites (w : Word) : (s.setI w).keyWrites = s.keyWrites := rfl
@[simp] theorem setI_romLoaded (w : Word) : (s.setI w).romLoaded = s.romLoaded := rfl

/-! `setPc` -/

@[simp] theorem setPc_v (w : Word) : (s.setPc w).v = s.v := rfl
@[simp] theorem setPc_i (w : Word) : (s.setPc w).i = s.i := rfl
@[simp] theorem setPc_pc (w : Word) : (s.setPc w).pc = w := rfl
@[simp] theorem setPc_sp (w : Word) : (s.setPc w).sp = s.sp := rfl
@[simp] theorem setPc_stk (w : Word) : (s.setPc w).stk = s.stk := rfl
@[simp] theorem setPc_mem (w : Word) : (s.setPc w).mem = s.mem := rfl
@[simp] theorem setPc_dt (w : Word) : (s.setPc w).dt = s.dt := rfl
@[simp] theorem setPc_st (w : Word) : (s.setPc w).st = s.st := rfl
@[simp] theorem setPc_key (w : Word) : (s.setPc w).key = s.key := rfl
@[simp] theorem setPc_fb (w : Word) : (s.setPc w).fb = s.fb := rfl
@[simp] theorem setPc_report (w : Word) : (s.setPc w).report = s.report := rfl
@[simp] theorem setPc_stepsDone (w : Word) : (s.setPc w).stepsDone = s.stepsDone := rfl
@[simp] theorem setPc_cycles (w : Word) : (s.setPc w).cycles = s.cycles := rfl
@[simp] theorem setPc_draws (w : Word) : (s.setPc w).draws = s.draws := rfl
@[simp] theorem setPc_keyWrites (w : Word) : (s.setPc w).keyWrites = s.keyWrites := rfl
@[simp] theorem setPc_romLoaded (w : Word) : (s.setPc w).romLoaded = s.romLoaded := rfl

/-! `setDT` -/

@[simp] theorem setDT_v (b : Byte) : (s.setDT b).v = s.v := rfl
@[simp] theorem setDT_i (b : Byte) : (s.setDT b).i = s.i := rfl
@[simp] theorem setDT_pc (b : Byte) : (s.setDT b).pc = s.pc := rfl
@[simp] theorem setDT_sp (b : Byte) : (s.setDT b).sp = s.sp := rfl
@[simp] theorem setDT_stk (b : Byte) : (s.setDT b).stk = s.stk := rfl
@[simp] theorem setDT_mem (b : Byte) : (s.setDT b).mem = s.mem := rfl
@[simp] theorem setDT_dt (b : Byte) : (s.setDT b).dt = b := rfl
@[simp] theorem setDT_st (b : Byte) : (s.setDT b).st = s.st := rfl
@[simp] theorem setDT_key (b : Byte) : (s.setDT b).key = s.key := rfl
@[simp] theorem setDT_fb (b : Byte) : (s.setDT b).fb = s.fb := rfl
@[simp] theorem setDT_report (b : Byte) : (s.setDT b).report = s.report := rfl
@[simp] theorem setDT_stepsDone (b : Byte) : (s.setDT b).stepsDone = s.stepsDone := rfl
@[simp] theorem setDT_cycles (b : Byte) : (s.setDT b).cycles = s.cycles := rfl
@[simp] theorem setDT_draws (b : Byte) : (s.setDT b).draws = s.draws := rfl
@[simp] theorem setDT_keyWrites (b : Byte) : (s.setDT b).keyWrites = s.keyWrites := rfl
@[simp] theorem setDT_romLoaded (b : Byte) : (s.setDT b).romLoaded = s.romLoaded := rfl

/-! `setST` -/

@[simp] theorem setST_v (b : Byte) : (s.setST b).v = s.v := rfl
@[simp] theorem setST_i (b : Byte) : (s.setST b).i = s.i := rfl
@[simp] theorem setST_pc (b : Byte) : (s.setST b).pc = s.pc := rfl
@[simp] theorem setST_sp (b : Byte) : (s.setST b).sp = s.sp := rfl
@[simp] theorem setST_stk (b : Byte) : (s.setST b).stk = s.stk := rfl
@[simp] theorem setST_mem (b : Byte) : (s.setST b).mem = s.mem := rfl
@[simp] theorem setST_dt (b : Byte) : (s.setST b).dt = s.dt := rfl
@[simp] theorem setST_st (b : Byte) : (s.setST b).st = b := rfl
@[simp] theorem setST_key (b : Byte) : (s.setST b).key = s.key := rfl
@[simp] theorem setST_fb (b : Byte) : (s.setST b).fb = s.fb := rfl
@[simp] theorem setST_report (b : Byte) : (s.setST b).report = s.report := rfl
@[simp] theorem setST_stepsDone (b : Byte) : (s.setST b).stepsDone = s.stepsDone := rfl
@[simp] theorem setST_cycles (b : Byte) : (s.setST b).cycles = s.cycles := rfl
@[simp] theorem setST_draws (b : Byte) : (s.setST b).draws = s.draws := rfl
@[simp] theorem setST_keyWrites (b : Byte) : (s.setST b).keyWrites = s.keyWrites := rfl
@[simp] theorem setST_romLoaded (b : Byte) : (s.setST b).romLoaded = s.romLoaded := rfl

/-! `skip` -/

@[simp] theorem skip_v : (s.skip).v = s.v := rfl
@[simp] theorem skip_i : (s.skip).i = s.i := rfl
@[simp] theorem skip_pc : (s.skip).pc = s.pc + 2 := rfl
@[simp] theorem skip_sp : (s.skip).sp = s.sp := rfl
@[simp] theorem skip_stk : (s.skip).stk = s.stk := rfl
@[simp] theorem skip_mem : (s.skip).mem = s.mem := rfl
@[simp] theorem skip_dt : (s.skip).dt = s.dt := rfl
@[simp] theorem skip_st : (s.skip).st = s.st := rfl
@[simp] theorem skip_key : (s.skip).key = s.key := rfl
@[simp] theorem skip_fb : (s.skip).fb = s.fb := rfl
@[simp] theorem skip_report : (s.skip).report = s.report := rfl
@[simp] theorem skip_stepsDone : (s.skip).stepsDone = s.stepsDone := rfl
@[simp] theorem skip_cycles : (s.skip).cycles = s.cycles := rfl
@[simp] theorem skip_draws : (s.skip).draws = s.draws := rfl
@[simp] theorem skip_keyWrites : (s.skip).keyWrites = s.keyWrites := rfl
@[simp] theorem skip_romLoaded : (s.skip).romLoaded = s.romLoaded := rfl

/-! `rewind` -/

@[simp] theorem rewind_v : (s.rewind).v = s.v := rfl
@[simp] theorem rewind_i : (s.rewind).i = s.i := rfl
@[simp] theorem rewind_pc : (s.rewind).pc = s.pc - 2 := rfl
@[simp] theorem rewind_sp : (s.rewind).sp = s.sp := rfl
@[simp] theorem rewind_stk : (s.rewind).stk = s.stk := rfl
@[simp] theorem rewind_mem : (s.rewind).mem = s.mem := rfl
@[simp] theorem rewind_dt : (s.rewind).dt = s.dt := rfl
@[simp] theorem rewind_st : (s.rewind).st = s.st := rfl
@[simp] theorem rewind_key : (s.rewind).key = s.key := rfl
@[simp] theorem rewind_fb : (s.rewind).fb = s.fb := rfl
@[simp] theorem rewind_report : (s.rewind).report = s.report := rfl
@[simp] theorem rewind_stepsDone : (s.rewind).stepsDone = s.stepsDone := rfl
@[simp] theorem rewind_cycles : (s.rewind).cycles = s.cycles := rfl
@[simp] theorem rewind_draws : (s.rewind).draws = s.draws := rfl
@[simp] theorem rewind_keyWrites : (s.rewind).keyWrites = s.keyWrites := rfl
@[simp] theorem rewind_romLoaded : (s.rewind).romLoaded = s.romLoaded := rfl

/-! `push` -/

@[simp] theorem push_v (h : s.sp.val < 16) : (s.push h).v = s.v := rfl
@[simp] theorem push_i (h : s.sp.val < 16) : (s.push h).i = s.i := rfl
@[simp] theorem push_pc (h : s.sp.val < 16) : (s.push h).pc = s.pc := rfl
@[simp] theorem push_sp (h : s.sp.val < 16) : (s.push h).sp = ⟨s.sp.val + 1, by omega⟩ := rfl
@[simp] theorem push_stk (h : s.sp.val < 16) : (s.push h).stk = s.stk.set s.sp.val s.pc h := rfl
@[simp] theorem push_mem (h : s.sp.val < 16) : (s.push h).mem = s.mem := rfl
@[simp] theorem push_dt (h : s.sp.val < 16) : (s.push h).dt = s.dt := rfl
@[simp] theorem push_st (h : s.sp.val < 16) : (s.push h).st = s.st := rfl
@[simp] theorem push_key (h : s.sp.val < 16) : (s.push h).key = s.key := rfl
@[simp] theorem push_fb (h : s.sp.val < 16) : (s.push h).fb = s.fb := rfl
@[simp] theorem push_report (h : s.sp.val < 16) : (s.push h).report = s.report := rfl
@[simp] theorem push_stepsDone (h : s.sp.val < 16) : (s.push h).stepsDone = s.stepsDone := rfl
@[simp] theorem push_cycles (h : s.sp.val < 16) : (s.push h).cycles = s.cycles := rfl
@[simp] theorem push_draws (h : s.sp.val < 16) : (s.push h).draws = s.draws := rfl
@[simp] theorem push_keyWrites (h : s.sp.val < 16) : (s.push h).keyWrites = s.keyWrites := rfl
@[simp] theorem push_romLoaded (h : s.sp.val < 16) : (s.push h).romLoaded = s.romLoaded := rfl

/-! `pop` -/

@[simp] theorem pop_v (h : 0 < s.sp.val) : (s.pop h).v = s.v := rfl
@[simp] theorem pop_i (h : 0 < s.sp.val) : (s.pop h).i = s.i := rfl
@[simp] theorem pop_pc (h : 0 < s.sp.val) : (s.pop h).pc = s.stk[s.sp.val - 1]'(by omega) := rfl
@[simp] theorem pop_sp (h : 0 < s.sp.val) : (s.pop h).sp = ⟨s.sp.val - 1, by omega⟩ := rfl
@[simp] theorem pop_stk (h : 0 < s.sp.val) : (s.pop h).stk = s.stk := rfl
@[simp] theorem pop_mem (h : 0 < s.sp.val) : (s.pop h).mem = s.mem := rfl
@[simp] theorem pop_dt (h : 0 < s.sp.val) : (s.pop h).dt = s.dt := rfl
@[simp] theorem pop_st (h : 0 < s.sp.val) : (s.pop h).st = s.st := rfl
@[simp] theorem pop_key (h : 0 < s.sp.val) : (s.pop h).key = s.key := rfl
@[simp] theorem pop_fb (h : 0 < s.sp.val) : (s.pop h).fb = s.fb := rfl
@[simp] theorem pop_report (h : 0 < s.sp.val) : (s.pop h).report = s.report := rfl
@[simp] theorem pop_stepsDone (h : 0 < s.sp.val) : (s.pop h).stepsDone = s.stepsDone := rfl
@[simp] theorem pop_cycles (h : 0 < s.sp.val) : (s.pop h).cycles = s.cycles := rfl
@[simp] theorem pop_draws (h : 0 < s.sp.val) : (s.pop h).draws = s.draws := rfl
@[simp] theorem pop_keyWrites (h : 0 < s.sp.val) : (s.pop h).keyWrites = s.keyWrites := rfl
@[simp] theorem pop_romLoaded (h : 0 < s.sp.val) : (s.pop h).romLoaded = s.romLoaded := rfl

/-! `storeBytes` -/

@[simp] theorem storeBytes_v (a : Nat) (bs : List Byte) : (s.storeBytes a bs).v = s.v := rfl
@[simp] theorem storeBytes_i (a : Nat) (bs : List Byte) : (s.storeBytes a bs).i = s.i := rfl
@[simp] theorem storeBytes_pc (a : Nat) (bs : List Byte) : (s.storeBytes a bs).pc = s.pc := rfl
@[simp] theorem storeBytes_sp (a : Nat) (bs : List Byte) : (s.storeBytes a bs).sp = s.sp := rfl
@[simp] theorem storeBytes_stk (a : Nat) (bs : List Byte) : (s.storeBytes a bs).stk = s.stk := rfl
@[simp] theorem storeBytes_mem (a : Nat) (bs : List Byte) : (s.storeBytes a bs).mem = memWriteList s.mem a bs := rfl
@[simp] theorem storeBytes_dt (a : Nat) (bs : List Byte) : (s.storeBytes a bs).dt = s.dt := rfl
@[simp] theorem storeBytes_st (a : Nat) (bs : List Byte) : (s.storeBytes a bs).st = s.st := rfl
@[simp] theorem storeBytes_key (a : Nat) (bs : List Byte) : (s.storeBytes a bs).key = s.key := rfl
@[simp] theorem storeBytes_fb (a : Nat) (bs : List Byte) : (s.storeBytes a bs).fb = s.fb := rfl
@[simp] theorem storeBytes_report (a : Nat) (bs : List Byte) : (s.storeBytes a bs).report = s.report := rfl
@[simp] theorem storeBytes_stepsDone (a : Nat) (bs : List Byte) : (s.storeBytes a bs).stepsDone = s.stepsDone := rfl
@[simp] theorem storeBytes_cycles (a : Nat) (bs : List Byte) : (s.storeBytes a bs).cycles = s.cycles := rfl
@[simp] theorem storeBytes_draws (a : Nat) (bs : List Byte) : (s.storeBytes a bs).draws = s.draws := rfl
@[simp] theorem storeBytes_keyWrites (a : Nat) (bs : List Byte) : (s.storeBytes a bs).keyWrites = s.keyWrites := rfl
@[simp] theorem storeBytes_romLoaded (a : Nat) (bs : List Byte) : (s.storeBytes a bs).romLoaded = s.romLoaded := rfl

/-! `loadRegs` -/

@[simp] theorem loadRegs_i (a : Nat) (x : Reg) : (s.loadRegs a x).i = s.i := rfl
@[simp] theorem loadRegs_pc (a : Nat) (x : Reg) : (s.loadRegs a x).pc = s.pc := rfl
@[simp] theorem loadRegs_sp (a : Nat) (x : Reg) : (s.loadRegs a x).sp = s.sp := rfl
@[simp] theorem loadRegs_stk (a : Nat) (x : Reg) : (s.loadRegs a x).stk = s.stk := rfl
@[simp] theorem loadRegs_mem (a : Nat) (x : Reg) : (s.loadRegs a x).mem = s.mem := rfl
@[simp] theorem loadRegs_dt (a : Nat) (x : Reg) : (s.loadRegs a x).dt = s.dt := rfl
@[simp] theorem loadRegs_st (a : Nat) (x : Reg) : (s.loadRegs a x).st = s.st := rfl
@[simp] theorem loadRegs_key (a : Nat) (x : Reg) : (s.loadRegs a x).key = s.key := rfl
@[simp] theorem loadRegs_fb (a : Nat) (x : Reg) : (s.loadRegs a x).fb = s.fb := rfl
@[simp] theorem loadRegs_report (a : Nat) (x : Reg) : (s.loadRegs a x).report = s.report := rfl
@[simp] theorem loadRegs_stepsDone (a : Nat) (x : Reg) : (s.loadRegs a x).stepsDone = s.stepsDone := rfl
@[simp] theorem loadRegs_cycles (a : Nat) (x : Reg) : (s.loadRegs a x).cycles = s.cycles := rfl
@[simp] theorem loadRegs_draws (a : Nat) (x : Reg) : (s.loadRegs a x).draws = s.draws := rfl
@[simp] theorem loadRegs_keyWrites (a : Nat) (x : Reg) : (s.loadRegs a x).keyWrites = s.keyWrites := rfl
@[simp] theorem loadRegs_romLoaded (a : Nat) (x : Reg) : (s.loadRegs a x).romLoaded = s.romLoaded := rfl

/-! `clearFb` -/

@[simp] theorem clearFb_v : (s.clearFb).v = s.v := rfl
@[simp] theorem clearFb_i : (s.clearFb).i = s.i := rfl
@[simp] theorem clearFb_pc : (s.clearFb).pc = s.pc := rfl
@[simp] theorem clearFb_sp : (s.clearFb).sp = s.sp := rfl
@[simp] theorem clearFb_stk : (s.clearFb).stk = s.stk := rfl
@[simp] theorem clearFb_mem : (s.clearFb).mem = s.mem := rfl
@[simp] theorem clearFb_dt : (s.clearFb).dt = s.dt := rfl
@[simp] theorem clearFb_st : (s.clearFb).st = s.st := rfl
@[simp] theorem clearFb_key : (s.clearFb).key = s.key := rfl
@[simp] theorem clearFb_fb : (s.clearFb).fb = Vector.replicate Config.fbH 0 := rfl
@[simp] theorem clearFb_report : (s.clearFb).report = s.report := rfl
@[simp] theorem clearFb_stepsDone : (s.clearFb).stepsDone = s.stepsDone := rfl
@[simp] theorem clearFb_cycles : (s.clearFb).cycles = s.cycles := rfl
@[simp] theorem clearFb_draws : (s.clearFb).draws = s.draws := rfl
@[simp] theorem clearFb_keyWrites : (s.clearFb).keyWrites = s.keyWrites := rfl
@[simp] theorem clearFb_romLoaded : (s.clearFb).romLoaded = s.romLoaded := rfl

/-! `toggle` -/

@[simp] theorem toggle_v (px py : Nat) : (s.toggle px py).v = s.v := rfl
@[simp] theorem toggle_i (px py : Nat) : (s.toggle px py).i = s.i := rfl
@[simp] theorem toggle_pc (px py : Nat) : (s.toggle px py).pc = s.pc := rfl
@[simp] theorem toggle_sp (px py : Nat) : (s.toggle px py).sp = s.sp := rfl
@[simp] theorem toggle_stk (px py : Nat) : (s.toggle px py).stk = s.stk := rfl
@[simp] theorem toggle_mem (px py : Nat) : (s.toggle px py).mem = s.mem := rfl
@[simp] theorem toggle_dt (px py : Nat) : (s.toggle px py).dt = s.dt := rfl
@[simp] theorem toggle_st (px py : Nat) : (s.toggle px py).st = s.st := rfl
@[simp] theorem toggle_key (px py : Nat) : (s.toggle px py).key = s.key := rfl
@[simp] theorem toggle_report (px py : Nat) : (s.toggle px py).report = s.report := rfl
@[simp] theorem toggle_stepsDone (px py : Nat) : (s.toggle px py).stepsDone = s.stepsDone := rfl
@[simp] theorem toggle_cycles (px py : Nat) : (s.toggle px py).cycles = s.cycles := rfl
@[simp] theorem toggle_draws (px py : Nat) : (s.toggle px py).draws = s.draws := rfl
@[simp] theorem toggle_keyWrites (px py : Nat) : (s.toggle px py).keyWrites = s.keyWrites := rfl
@[simp] theorem toggle_romLoaded (px py : Nat) : (s.toggle px py).romLoaded = s.romLoaded := rfl

/-! `withError` -/

@[simp] theorem withError_v (e : Report) : (s.withError e).v = s.v := rfl
@[simp] theorem withError_i (e : Report) : (s.withError e).i = s.i := rfl
@[simp] theorem withError_pc (e : Report) : (s.withError e).pc = s.pc := rfl
@[simp] theorem withError_sp (e : Report) : (s.withError e).sp = s.sp := rfl
@[simp] theorem withError_stk (e : Report) : (s.withError e).stk = s.stk := rfl
@[simp] theorem withError_mem (e : Report) : (s.withError e).mem = s.mem := rfl
@[simp] theorem withError_dt (e : Report) : (s.withError e).dt = s.dt := rfl
@[simp] theorem withError_st (e : Report) : (s.withError e).st = s.st := rfl
@[simp] theorem withError_key (e : Report) : (s.withError e).key = s.key := rfl
@[simp] theorem withError_fb (e : Report) : (s.withError e).fb = s.fb := rfl
@[simp] theorem withError_report (e : Report) : (s.withError e).report = { s.report with error := e } := rfl
@[simp] theorem withError_stepsDone (e : Report) : (s.withError e).stepsDone = s.stepsDone := rfl
@[simp] theorem withError_cycles (e : Report) : (s.withError e).cycles = s.cycles := rfl
@[simp] theorem withError_draws (e : Report) : (s.withError e).draws = s.draws := rfl
@[simp] theorem withError_keyWrites (e : Report) : (s.withError e).keyWrites = s.keyWrites := rfl
@[simp] theorem withError_romLoaded (e : Report) : (s.withError e).romLoaded = s.romLoaded := rfl

/-! `advance` -/

@[simp] theorem advance_v : (s.advance).v = s.v := rfl
@[simp] theorem advance_i : (s.advance).i = s.i := rfl
@[simp] theorem advance_pc : (s.advance).pc = s.pc + 2 := rfl
@[simp] theorem advance_sp : (s.advance).sp = s.sp := rfl
@[simp] theorem advance_stk : (s.advance).stk = s.stk := rfl
@[simp] theorem advance_mem : (s.advance).mem = s.mem := rfl
@[simp] theorem advance_dt : (s.advance).dt = s.dt := rfl
@[simp] theorem advance_st : (s.advance).st = s.st := rfl
@[simp] theorem advance_key : (s.advance).key = s.key := rfl
@[simp] theorem advance_fb : (s.advance).fb = s.fb := rfl
@[simp] theorem advance_report : (s.advance).report = { error := .noError, fetchedFrom := s.pc } := rfl
@[simp] theorem advance_stepsDone : (s.advance).stepsDone = s.stepsDone := rfl
@[simp] theorem advance_cycles : (s.advance).cycles = s.cycles := rfl
@[simp] theorem advance_draws : (s.advance).draws = s.draws := rfl
@[simp] theorem advance_keyWrites : (s.advance).keyWrites = s.keyWrites := rfl
@[simp] theorem advance_romLoaded : (s.advance).romLoaded = s.romLoaded := rfl

/-! `setFlagThenReg` -/

@[simp] theorem setFlagThenReg_v (f : Byte) (x : Reg) (r : Byte) :
    (s.setFlagThenReg f x r).v = (s.v.set flagReg f).set x r := rfl
@[simp] theorem setFlagThenReg_i (f : Byte) (x : Reg) (r : Byte) : (s.setFlagThenReg f x r).i = s.i := rfl
@[simp] theorem setFlagThenReg_pc (f : Byte) (x : Reg) (r : Byte) : (s.setFlagThenReg f x r).pc = s.pc := rfl
@[simp] theorem setFlagThenReg_sp (f : Byte) (x : Reg) (r : Byte) : (s.setFlagThenReg f x r).sp = s.sp := rfl
@[simp] theorem setFlagThenReg_stk (f : Byte) (x : Reg) (r : Byte) : (s.setFlagThenReg f x r).stk = s.stk := rfl
@[simp] theorem setFlagThenReg_mem (f : Byte) (x : Reg) (r : Byte) : (s.setFlagThenReg f x r).mem = s.mem := rfl
@[simp] theorem setFlagThenReg_dt (f : Byte) (x : Reg) (r : Byte) : (s.setFlagThenReg f x r).dt = s.dt := rfl
@[simp] theorem setFlagThenReg_st (f : Byte) (x : Reg) (r : Byte) : (s.setFlagThenReg f x r).st = s.st := rfl
@[simp] theorem setFlagThenReg_key (f : Byte) (x : Reg) (r : Byte) : (s.setFlagThenReg f x r).key = s.key := rfl
@[simp] theorem setFlagThenReg_fb (f : Byte) (x : Reg) (r : Byte) : (s.setFlagThenReg f x r).fb = s.fb := rfl
@[simp] theorem setFlagThenReg_report (f : Byte) (x : Reg) (r : Byte) :
    (s.setFlagThenReg f x r).report = s.report := rfl
@[simp] theorem setFlagThenReg_stepsDone (f : Byte) (x : Reg) (r : Byte) :
    (s.setFlagThenReg f x r).stepsDone = s.stepsDone := rfl
@[simp] theorem setFlagThenReg_cycles (f : Byte) (x : Reg) (r : Byte) :
    (s.setFlagThenReg f x r).cycles = s.cycles := rfl
@[simp] theorem setFlagThenReg_draws (f : Byte) (x : Reg) (r : Byte) : (s.setFlagThenReg f x r).draws = s.draws := rfl
@[simp] theorem setFlagThenReg_keyWrites (f : Byte) (x : Reg) (r : Byte) :
    (s.setFlagThenReg f x r).keyWrites = s.keyWrites := rfl
@[simp] theorem setFlagThenReg_romLoaded (f : Byte) (x : Reg) (r : Byte) :
    (s.setFlagThenReg f x r).romLoaded = s.romLoaded := rfl

/-! `timerTick` -/

@[simp] theorem timerTick_v : (timerTick s).v = s.v := rfl
@[simp] theorem timerTick_i : (timerTick s).i = s.i := rfl
@[simp] theorem timerTick_pc : (timerTick s).pc = s.pc := rfl
@[simp] theorem timerTick_sp : (timerTick s).sp = s.sp := rfl
@[simp] theorem timerTick_stk : (timerTick s).stk = s.stk := rfl
@[simp] theorem timerTick_mem : (timerTick s).mem = s.mem := rfl
@[simp] theorem timerTick_dt : (timerTick s).dt = timerDec s.dt := rfl
@[simp] theorem timerTick_st : (timerTick s).st = timerDec s.st := rfl
@[simp] theorem timerTick_key : (timerTick s).key = s.key := rfl
@[simp] theorem timerTick_fb : (timerTick s).fb = s.fb := rfl
@[simp] theorem timerTick_report : (timerTick s).report = s.report := rfl
@[simp] theorem timerTick_stepsDone : (timerTick s).stepsDone = s.stepsDone := rfl
@[simp] theorem timerTick_cycles : (timerTick s).cycles = s.cycles := rfl
@[simp] theorem timerTick_draws : (timerTick s).draws = s.draws := rfl
@[simp] theorem timerTick_keyWrites : (timerTick s).keyWrites = s.keyWrites := rfl
@[simp] theorem timerTick_romLoaded : (timerTick s).romLoaded = s.romLoaded := rfl

/-! `endCycle` -/

@[simp] theorem endCycle_v : (endCycle s).v = s.v := rfl
@[simp] theorem endCycle_i : (endCycle s).i = s.i := rfl
@[simp] theorem endCycle_pc : (endCycle s).pc = s.pc := rfl
@[simp] theorem endCycle_sp : (endCycle s).sp = s.sp := rfl
@[simp] theorem endCycle_stk : (endCycle s).stk = s.stk := rfl
@[simp] theorem endCycle_mem : (endCycle s).mem = s.mem := rfl
@[simp] theorem endCycle_dt : (endCycle s).dt = timerDec s.dt := rfl
@[simp] theorem endCycle_st : (endCycle s).st = timerDec s.st := rfl
@[simp] theorem endCycle_key : (endCycle s).key = s.key := rfl
@[simp] theorem endCycle_fb : (endCycle s).fb = s.fb := rfl
@[simp] theorem endCycle_report : (endCycle s).report = s.report := rfl
@[simp] theorem endCycle_stepsDone : (endCycle s).stepsDone = s.stepsDone := rfl
@[simp] theorem endCycle_cycles : (endCycle s).cycles = s.cycles + 1 := rfl
@[simp] theorem endCycle_draws : (endCycle s).draws = s.draws := rfl
@[simp] theorem endCycle_keyWrites : (endCycle s).keyWrites = s.keyWrites := rfl
@[simp] theorem endCycle_romLoaded : (endCycle s).romLoaded = s.romLoaded := rfl

/-! `keypadInput` -/

@[simp] theorem keypadInput_v : (keypadInput s).v = s.v := rfl
@[simp] theorem keypadInput_i : (keypadInput s).i = s.i := rfl
@[simp] theorem keypadInput_pc : (keypadInput s).pc = s.pc := rfl
@[simp] theorem keypadInput_sp : (keypadInput s).sp = s.sp := rfl
@[simp] theorem keypadInput_stk : (keypadInput s).stk = s.stk := rfl
@[simp] theorem keypadInput_mem : (keypadInput s).mem = s.mem := rfl
@[simp] theorem keypadInput_dt : (keypadInput s).dt = s.dt := rfl
@[simp] theorem keypadInput_st : (keypadInput s).st = s.st := rfl
@[simp] theorem keypadInput_key : (keypadInput s).key = (Config.keypadWrite s.keyWrites).getD s.key := rfl
@[simp] theorem keypadInput_fb : (keypadInput s).fb = s.fb := rfl
@[simp] theorem keypadInput_report : (keypadInput s).report = s.report := rfl
@[simp] theorem keypadInput_stepsDone : (keypadInput s).stepsDone = s.stepsDone := rfl
@[simp] theorem keypadInput_cycles : (keypadInput s).cycles = s.cycles := rfl
@[simp] theorem keypadInput_draws : (keypadInput s).draws = s.draws := rfl
@[simp] theorem keypadInput_keyWrites : (keypadInput s).keyWrites = s.keyWrites + 1 := rfl
@[simp] theorem keypadInput_romLoaded : (keypadInput s).romLoaded = s.romLoaded := rfl

/-! `endStep` -/

@[simp] theorem endStep_v : (s.endStep).v = s.v := rfl
@[simp] theorem endStep_i : (s.endStep).i = s.i := rfl
@[simp] theorem endStep_pc : (s.endStep).pc = s.pc := rfl
@[simp] theorem endStep_sp : (s.endStep).sp = s.sp := rfl
@[simp] theorem endStep_stk : (s.endStep).stk = s.stk := rfl
@[simp] theorem endStep_mem : (s.endStep).mem = s.mem := rfl
@[simp] theorem endStep_dt : (s.endStep).dt = timerAfter s.lastOfCycle s.dt := rfl
@[simp] theorem endStep_st : (s.endStep).st = timerAfter s.lastOfCycle s.st := rfl
@[simp] theorem endStep_fb : (s.endStep).fb = s.fb := rfl
@[simp] theorem endStep_report : (s.endStep).report = s.report := rfl
@[simp] theorem endStep_draws : (s.endStep).draws = s.draws := rfl
@[simp] theorem endStep_romLoaded : (s.endStep).romLoaded = s.romLoaded := rfl

/-! Registers are read through `State.reg`. -/

@[simp] theorem reg_setReg (x y : Reg) (b : Byte) : (s.setReg x b).reg y = if x = y then b else s.reg y := by
  simp [State.reg, Vector.getElem_set, Fin.ext_iff]

theorem reg_setReg_self (x : Reg) (b : Byte) : (s.setReg x b).reg x = b := by simp

@[simp] theorem reg_setFlagThenReg (f : Byte) (x y : Reg) (r : Byte) :
    (s.setFlagThenReg f x r).reg y = if x = y then r else if flagReg = y then f else s.reg y := by
  simp [State.setFlagThenReg]

@[simp] theorem reg_loadRegs (a : Nat) (x y : Reg) :
    (s.loadRegs a x).reg y = if y ≤ x then s.readMem (a + y.val) else s.reg y := by
  simp [State.reg, State.loadRegs, State.readMem]

/-- A register read depends on the register file alone. -/
theorem reg_congr {s t : State} (h : t.v = s.v) (x : Reg) : t.reg x = s.reg x := by simp [State.reg, h]

/-- A memory read depends on memory alone. -/
theorem readMem_congr {s t : State} (h : t.mem = s.mem) (a : Nat) : t.readMem a = s.readMem a := by
  simp [State.readMem, h]

/-- A cell depends on the framebuffer alone. -/
theorem cell_congr {s t : State} (h : t.fb = s.fb) (px py : Nat) : t.cell px py = s.cell px py := by
  simp [State.cell, h]

/-- Nothing is on left of, right of, above or below the screen. -/
theorem cell_out (px py : Nat) (h : Config.fbW ≤ px ∨ Config.fbH ≤ py) : s.cell px py = false := by
  unfold State.cell
  split
  · rename_i hy
    exact BitVec.getLsbD_of_ge _ _ (by omega)
  · rfl

@[simp] theorem cell_clearFb (px py : Nat) : s.clearFb.cell px py = false := by
  unfold State.cell State.clearFb
  split <;> simp

/-- Inverting a cell on the screen inverts it and no other. -/
theorem cell_toggle (px py qx qy : Nat) (hx : px < Config.fbW) (hy : py < Config.fbH) :
    (s.toggle px py).cell qx qy = if px = qx ∧ py = qy then !(s.cell qx qy) else s.cell qx qy := by
  unfold State.cell State.toggle
  by_cases hq : qy < Config.fbH
  · by_cases e : py = qy
    · subst e
      by_cases ex : px = qx
      · subst ex; simp [hy, hx]
      · have : ¬ (px = qx) := ex
        simp [hy, BitVec.getLsbD_xor, BitVec.getLsbD_twoPow, this]
    · simp [hy, hq, e]
  · have : ¬ (py = qy) := by omega
    simp [hq, this]

end Sys2Proof.Machine
end

