-- ==== Sys2Proof/Laws/Memory.lean ====
section
/-! SUPPORT. Memory: a read after a write, and the canonical form, which every memory operation keeps. -/

namespace Sys2Proof.Machine

theorem memRead_memEntry_append (a b : Nat) (x : Byte) (m : Memory) (h : b ≠ a) :
    memRead (memEntry a x ++ m) b = memRead m b := by
  unfold memEntry; split
  · rfl
  · simp [memRead, Ne.symm h]

/-- A write leaves every other address alone, whatever the list. -/
theorem memRead_memWrite_other (m : Memory) (a b : Nat) (x : Byte) (h : b ≠ a) :
    memRead (memWrite m a x) b = memRead m b := by
  induction m with
  | nil => simpa [memWrite] using memRead_memEntry_append a b x [] h
  | cons e m ih =>
    obtain ⟨k, c⟩ := e
    unfold memWrite
    split
    · exact memRead_memEntry_append _ _ _ _ h
    · split
      · rename_i hk
        subst hk
        rw [memRead_memEntry_append _ _ _ _ h]
        simp [memRead, Ne.symm h]
      · simp only [memRead, ih]

/-- An address below a canonical list's bound reads its reset content. -/
theorem memRead_below (m : Memory) (lo a : Nat) (h : Memory.wfFrom lo m = true) (ha : a < lo) :
    memRead m a = memBackground a := by
  induction m generalizing lo with
  | nil => rfl
  | cons e m ih =>
    obtain ⟨k, c⟩ := e
    simp only [Memory.wfFrom, Bool.and_eq_true, decide_eq_true_eq] at h
    have : ¬ (k = a) := by omega
    simp only [memRead, this, if_false]
    exact ih (k + 1) h.2 (by omega)

theorem memRead_memEntry_self (a : Nat) (x : Byte) (m : Memory) (h : Memory.wfFrom (a + 1) m = true) :
    memRead (memEntry a x ++ m) a = x := by
  unfold memEntry; split
  · rename_i hx; simpa [hx] using memRead_below m (a + 1) a h (by omega)
  · simp [memRead]

theorem Memory.wfFrom_mono (m : Memory) (lo lo' : Nat) (h : Memory.wfFrom lo m = true) (hl : lo' ≤ lo) :
    Memory.wfFrom lo' m = true := by
  cases m with
  | nil => rfl
  | cons e m =>
    simp only [Memory.wfFrom, Bool.and_eq_true, decide_eq_true_eq] at h ⊢
    exact ⟨⟨⟨by omega, h.1.1.2⟩, h.1.2⟩, h.2⟩

theorem Memory.wfFrom_memEntry_append (lo a : Nat) (x : Byte) (m : Memory) (h : Memory.wfFrom (a + 1) m = true)
    (hlo : lo ≤ a) (ha : a < Config.memSize) : Memory.wfFrom lo (memEntry a x ++ m) = true := by
  unfold memEntry; split
  · exact Memory.wfFrom_mono m (a + 1) lo h (by omega)
  · rename_i hx
    simp only [List.cons_append, List.nil_append, Memory.wfFrom, Bool.and_eq_true, decide_eq_true_eq]
    exact ⟨⟨⟨hlo, ha⟩, by simpa using hx⟩, h⟩

/-- A read after a write to the same address of a canonical memory gives the byte written. -/
theorem memRead_memWrite_self_from (m : Memory) (lo a : Nat) (x : Byte) (h : Memory.wfFrom lo m = true) :
    memRead (memWrite m a x) a = x := by
  induction m generalizing lo with
  | nil => simpa [memWrite] using memRead_memEntry_self a x [] rfl
  | cons e m ih =>
    obtain ⟨k, c⟩ := e
    have h' := h
    simp only [Memory.wfFrom, Bool.and_eq_true, decide_eq_true_eq] at h
    unfold memWrite
    split
    · refine memRead_memEntry_self _ _ _ ?_
      simp only [Memory.wfFrom, Bool.and_eq_true, decide_eq_true_eq]
      exact ⟨⟨⟨by omega, h.1.1.2⟩, h.1.2⟩, h.2⟩
    · split
      · rename_i hk
        subst hk
        exact memRead_memEntry_self _ _ _ h.2
      · rename_i hk
        simp only [memRead, Ne.symm hk, if_false]
        exact ih (k + 1) h.2

/-- A write inside memory keeps the canonical form. -/
theorem Memory.wfFrom_memWrite (m : Memory) (lo a : Nat) (x : Byte) (h : Memory.wfFrom lo m = true)
    (hlo : lo ≤ a) (ha : a < Config.memSize) : Memory.wfFrom lo (memWrite m a x) = true := by
  induction m generalizing lo with
  | nil => simpa [memWrite] using Memory.wfFrom_memEntry_append lo a x [] rfl hlo ha
  | cons e m ih =>
    obtain ⟨k, c⟩ := e
    have h' := h
    simp only [Memory.wfFrom, Bool.and_eq_true, decide_eq_true_eq] at h
    unfold memWrite
    split
    · refine Memory.wfFrom_memEntry_append lo a x _ ?_ hlo ha
      simp only [Memory.wfFrom, Bool.and_eq_true, decide_eq_true_eq]
      exact ⟨⟨⟨by omega, h.1.1.2⟩, h.1.2⟩, h.2⟩
    · split
      · rename_i hk
        subst hk
        exact Memory.wfFrom_memEntry_append lo a x m h.2 hlo ha
      · simp only [Memory.wfFrom, Bool.and_eq_true, decide_eq_true_eq]
        exact ⟨h.1, ih (k + 1) h.2 (by omega)⟩

theorem memRead_memWrite_self (m : Memory) (a : Nat) (x : Byte) (h : m.wf = true) :
    memRead (memWrite m a x) a = x := memRead_memWrite_self_from m 0 a x h

theorem Memory.wf_memWrite (m : Memory) (a : Nat) (x : Byte) (h : m.wf = true) (ha : a < Config.memSize) :
    Memory.wf (memWrite m a x) = true := Memory.wfFrom_memWrite m 0 a x h (by omega) ha

/-- A store of several bytes inside memory keeps the canonical form. -/
theorem Memory.wf_memWriteList (m : Memory) (a : Nat) (bs : List Byte) (h : m.wf = true)
    (ha : a + bs.length ≤ Config.memSize) : Memory.wf (memWriteList m a bs) = true := by
  induction bs generalizing m a with
  | nil => exact h
  | cons b bs ih =>
    simp only [List.length_cons] at ha
    exact ih (memWrite m a b) (a + 1) (Memory.wf_memWrite m a b h (by omega)) (by omega)

/-- A store of several bytes leaves every address outside them alone. -/
theorem memRead_memWriteList_outside (m : Memory) (a b : Nat) (bs : List Byte) (h : b < a ∨ a + bs.length ≤ b) :
    memRead (memWriteList m a bs) b = memRead m b := by
  induction bs generalizing m a with
  | nil => rfl
  | cons x bs ih =>
    simp only [List.length_cons] at h
    simp only [memWriteList]
    rw [ih _ _ (by omega), memRead_memWrite_other _ _ _ _ (by omega)]

/-- A store of several bytes is read back byte by byte. -/
theorem memRead_memWriteList_inside (m : Memory) (a k : Nat) (bs : List Byte) (h : m.wf = true)
    (ha : a + bs.length ≤ Config.memSize) (hk : k < bs.length) :
    memRead (memWriteList m a bs) (a + k) = bs[k] := by
  induction bs generalizing m a k with
  | nil => exact absurd hk (by simp)
  | cons x bs ih =>
    simp only [List.length_cons] at ha hk
    simp only [memWriteList]
    cases k with
    | zero =>
      rw [memRead_memWriteList_outside _ _ _ _ (by omega)]
      exact memRead_memWrite_self m a x h
    | succ k =>
      have := ih (memWrite m a x) (a + 1) k (Memory.wf_memWrite m a x h (by omega)) (by omega) (by omega)
      rw [show a + (k + 1) = a + 1 + k from by omega, this]
      rfl

end Sys2Proof.Machine
end

