-- ==== Sys2Proof/Laws/Ops.lean ====
section
/-! SUPPORT. One lemma for each shared operation, saying once everything it can do. -/

namespace Sys2Proof.Machine

theorem mapNext_eq_next {f : State → State} {r : Result} {t : State} :
    mapNext f r = .next t ↔ ∃ u, r = .next u ∧ t = f u := by
  cases r <;> simp [mapNext, eq_comm]

@[simp] theorem andThen_next {α β : Type} (a : α) (f : α → Host.Outcome β Fault Refusal) :
    andThen (.next a) f = f a := rfl

/-- A sequence answers only through an answer of its first operation. -/
theorem andThen_eq_next {α β : Type} {r : Host.Outcome α Fault Refusal} {f : α → Host.Outcome β Fault Refusal} {b : β} :
    andThen r f = .next b ↔ ∃ a, r = .next a ∧ f a = .next b := by
  cases r <;> simp [andThen]

theorem raise_eq_next {e : Report} {s t : State} : raise e s = .next t ↔ t = s.withError e := by
  simp [raise, eq_comm]

/-! The range guard (rules R41, R48). -/

theorem memRangeError_none {a n : Nat} (h : n = 0 ∨ a + n ≤ Config.memSize) : memRangeError a n = none := by
  simp [memRangeError, h]

theorem memRangeError_some {a n : Nat} (h : n ≠ 0) (h' : Config.memSize < a + n) :
    memRangeError a n = some (.memRange (max a Config.memSize)) := by
  have : ¬ (n = 0 ∨ a + n ≤ Config.memSize) := by omega
  simp [memRangeError, this]

theorem guardGroup_inside {s : State} {n : Nat} {f : State → State}
    (h : n = 0 ∨ s.i.toNat + n ≤ Config.memSize) : guardGroup s n f = .next (f s) := by
  simp [guardGroup, ea, memRangeError_none h]

theorem guardGroup_outside {s : State} {n : Nat} {f : State → State} (h : n ≠ 0)
    (h' : Config.memSize < s.i.toNat + n) :
    guardGroup s n f = .next (s.withError (.memRange (max s.i.toNat Config.memSize))) := by
  simp [guardGroup, ea, memRangeError_some h h', raise]

/-- Everything a guarded memory instruction can answer. -/
theorem guardGroup_cases {s t : State} {n : Nat} {f : State → State} (h : guardGroup s n f = .next t) :
    ((n = 0 ∨ s.i.toNat + n ≤ Config.memSize) ∧ t = f s) ∨
    (n ≠ 0 ∧ Config.memSize < s.i.toNat + n ∧ t = s.withError (.memRange (max s.i.toNat Config.memSize))) := by
  by_cases hc : n = 0 ∨ s.i.toNat + n ≤ Config.memSize
  · rw [guardGroup_inside hc] at h; cases h; exact .inl ⟨hc, rfl⟩
  · rw [guardGroup_outside (by omega) (by omega)] at h; cases h
    exact .inr ⟨by omega, by omega, rfl⟩

/-! The key guard (rule R157). -/

theorem guardKey_inside {s : State} {k : Byte} {f : State → State} (h : k.toNat ≤ 15) :
    guardKey s k f = .next (f s) := by simp [guardKey, Nat.not_lt.mpr h]

theorem guardKey_outside {s : State} {k : Byte} {f : State → State} (h : 15 < k.toNat) :
    guardKey s k f = .next (s.withError (.keyRange k)) := by simp [guardKey, h, raise]

/-- Everything a key skip can answer. -/
theorem guardKey_cases {s t : State} {k : Byte} {f : State → State} (h : guardKey s k f = .next t) :
    (k.toNat ≤ 15 ∧ t = f s) ∨ (15 < k.toNat ∧ t = s.withError (.keyRange k)) := by
  by_cases hc : k.toNat ≤ 15
  · rw [guardKey_inside hc] at h; cases h; exact .inl ⟨hc, rfl⟩
  · rw [guardKey_outside (by omega)] at h; cases h; exact .inr ⟨by omega, rfl⟩

/-! The key scan (rule R132). -/

theorem lowestKey_some {s : State} {k : Nat} (h : lowestKey s = some k) :
    k < 16 ∧ keyDown s k = true ∧ ∀ j < k, keyDown s j = false := by
  unfold lowestKey at h
  rw [List.find?_range_eq_some] at h
  obtain ⟨hk, hlt, hj⟩ := h
  exact ⟨by simpa using hlt, by simpa using hk, fun j hjk => by simpa using hj j hjk⟩

theorem lowestKey_none {s : State} : lowestKey s = none ↔ ∀ k < 16, keyDown s k = false := by
  simp [lowestKey]

theorem lowestKey_of_least {s : State} {k : Nat} (hk : k < 16) (hd : keyDown s k = true)
    (hl : ∀ j < k, keyDown s j = false) : lowestKey s = some k := by
  unfold lowestKey
  rw [List.find?_range_eq_some]
  exact ⟨by simpa using hd, by simpa using hk, fun j hjk => by simpa using hl j hjk⟩

/-! Operand lists. -/

@[simp] theorem length_memReadList (m : Memory) (a n : Nat) : (memReadList m a n).length = n := by
  simp [memReadList]

theorem getElem_memReadList (m : Memory) (a n k : Nat) (h : k < (memReadList m a n).length) :
    (memReadList m a n)[k] = memRead m (a + k) := by simp [memReadList]

@[simp] theorem length_bcdDigits (b : Byte) : (bcdDigits b).length = 3 := rfl

@[simp] theorem length_regsUpTo (s : State) (x : Reg) : (regsUpTo s x).length = x.val + 1 := by
  simp [regsUpTo]

theorem getElem_regsUpTo (s : State) (x : Reg) (k : Nat) (h : k < (regsUpTo s x).length) :
    (regsUpTo s x)[k] = s.reg ⟨k, by rw [length_regsUpTo] at h; omega⟩ := by
  simp [regsUpTo, State.reg]

/-! Timers and the end of a step (rules R163, R187). -/

theorem timerDec_toNat (t : Byte) : (timerDec t).toNat = t.toNat - 1 := by
  unfold timerDec
  split
  · rename_i h; subst h; rfl
  · rename_i h
    have : t.toNat ≠ 0 := fun e => h (BitVec.eq_of_toNat_eq (by simpa using e))
    have := t.isLt
    rw [BitVec.toNat_sub]; simp; omega

theorem timerAfter_eq (last : Bool) (t : Byte) : timerAfter last t = if last then timerDec t else t := by
  unfold timerAfter
  split
  · rename_i h; subst h; cases last <;> rfl
  · rfl

/-- A step that does not end its cycle operation is counted and nothing else happens. -/
theorem endStep_mid (s : State) (h : s.stepsDone + 1 < Config.batchSize) :
    s.endStep = { s with stepsDone := s.stepsDone + 1 } := by
  have : s.lastOfCycle = false := by simp [State.lastOfCycle, h]
  simp [State.endStep, this, timerAfter_eq]

/-- The last step of a cycle operation is followed by the timer tick and the host's keypad write. -/
theorem endStep_last (s : State) (h : Config.batchSize ≤ s.stepsDone + 1) :
    s.endStep = keypadInput { timerTick s with stepsDone := 0, cycles := s.cycles + 1 } := by
  have : s.lastOfCycle = true := by simp [State.lastOfCycle, h]
  simp [State.endStep, this, timerAfter_eq, keypadInput, timerTick]

/-! The fetch (rules R42, R160). -/

theorem fetchError_none {s : State} (h : s.pc.toNat + 1 < Config.memSize) : s.fetchError = none :=
  memRangeError_none (.inr (by omega))

theorem fetchError_some {s : State} (h : Config.memSize ≤ s.pc.toNat + 1) :
    s.fetchError = some (.memRange (max s.pc.toNat Config.memSize)) :=
  memRangeError_some (by decide) (by omega)

theorem fetch_outside {s : State} (h : Config.memSize ≤ s.pc.toNat + 1) :
    s.fetch = .error (.memRange (max s.pc.toNat Config.memSize)) := by simp [State.fetch, fetchError_some h]

theorem fetch_instr {s : State} {i : Instr} (h : s.pc.toNat + 1 < Config.memSize)
    (hd : decodeWord s.fetchWord = .ok i) : s.fetch = .instr i := by
  simp [State.fetch, fetchError_none h, hd]

theorem fetch_unknown {s : State} (h : s.pc.toNat + 1 < Config.memSize) (hs : select s.fetchWord = none) :
    s.fetch = .error (.unknownOpcode s.fetchWord) := by
  simp [State.fetch, fetchError_none h, decodeWord, hs]

/-- Everything an instruction step can answer. -/
theorem instrStep_cases (s : State) :
    (∃ e, s.fetch = .error e ∧ instrStep s = .next (s.advance.withError e)) ∨
    (∃ i, s.fetch = .instr i ∧ instrStep s = exec i s.advance) := by
  unfold instrStep
  cases h : s.fetch with
  | error e => exact .inl ⟨e, rfl, rfl⟩
  | instr i => exact .inr ⟨i, rfl, rfl⟩

end Sys2Proof.Machine
end

