-- ==== Sys2Proof/Laws/Sprite.lean ====
section
/-! SUPPORT. The sprite loop (rules R121, R122): which cells it visits, that it visits none twice, and what it leaves in
the framebuffer and in the flag register. -/

namespace Sys2Proof.Machine

theorem mem_rowCells {x0 y : Nat} {bits : Byte} {p : Nat × Nat} :
    p ∈ rowCells x0 y bits ↔
      p.2 = y ∧ y < Config.fbH ∧ p.1 < Config.fbW ∧ x0 ≤ p.1 ∧ p.1 < x0 + 8 ∧ bits.getLsbD (7 - (p.1 - x0)) = true := by
  obtain ⟨px, py⟩ := p
  simp only [rowCells, List.mem_map, List.mem_filter, List.mem_range, Bool.and_eq_true, decide_eq_true_eq,
    Prod.mk.injEq]
  constructor
  · rintro ⟨c, ⟨hc, ⟨hb, hx⟩, hy⟩, rfl, rfl⟩
    exact ⟨rfl, hy, hx, by omega, by omega, by rwa [Nat.add_sub_cancel_left]⟩
  · rintro ⟨rfl, hy, hx, h1, h2, hb⟩
    exact ⟨px - x0, ⟨by omega, ⟨hb, by omega⟩, hy⟩, by omega, rfl⟩

theorem nodup_rowCells (x0 y : Nat) (bits : Byte) : (rowCells x0 y bits).Nodup := by
  refine List.Nodup.map ?_ (List.nodup_range.filter _)
  intro a b h
  simp only [Prod.mk.injEq] at h
  omega

/-- The cells of a sprite drawn from column `x0`, row `y`: those under an on bit and on the screen. -/
theorem mem_spriteCells {x0 y : Nat} {bytes : List Byte} {p : Nat × Nat} :
    p ∈ spriteCells x0 y bytes ↔
      ∃ r, ∃ h : r < bytes.length, p.2 = y + r ∧ p.2 < Config.fbH ∧ p.1 < Config.fbW ∧ x0 ≤ p.1 ∧ p.1 < x0 + 8 ∧
        (bytes[r]).getLsbD (7 - (p.1 - x0)) = true := by
  induction bytes generalizing y with
  | nil => simp [spriteCells]
  | cons b bs ih =>
    simp only [spriteCells, List.mem_append, mem_rowCells, ih]
    constructor
    · rintro (⟨h1, h2, h3⟩ | ⟨r, hr, h1, h2⟩)
      · exact ⟨0, by simp, by omega, by omega, h3⟩
      · exact ⟨r + 1, by simpa using hr, by omega, by simpa using h2⟩
    · rintro ⟨r, hr, h1, h2⟩
      cases r with
      | zero => exact .inl ⟨by omega, by omega, h2.2⟩
      | succ r => exact .inr ⟨r, by simpa using hr, by omega, by simpa using h2⟩

/-- "no cell is visited twice in one instruction" (rule R121). -/
theorem nodup_spriteCells (x0 y : Nat) (bytes : List Byte) : (spriteCells x0 y bytes).Nodup := by
  induction bytes generalizing y with
  | nil => simp [spriteCells]
  | cons b bs ih =>
    refine List.Nodup.append (nodup_rowCells x0 y b) (ih (y + 1)) ?_
    intro p hp hq
    rw [mem_rowCells] at hp
    obtain ⟨r, -, h, -⟩ := mem_spriteCells.mp hq
    omega

/-- A cell on the screen. -/
def OnScreen (p : Nat × Nat) : Prop := p.1 < Config.fbW ∧ p.2 < Config.fbH

theorem onScreen_spriteCells {x0 y : Nat} {bytes : List Byte} {p : Nat × Nat} (h : p ∈ spriteCells x0 y bytes) :
    OnScreen p := by
  obtain ⟨r, -, -, h2, h1, -⟩ := mem_spriteCells.mp h
  exact ⟨h1, h2⟩

theorem cell_drawCell (s : State) (p : Nat × Nat) (hp : OnScreen p) (qx qy : Nat) :
    (drawCell s p).cell qx qy = if p = (qx, qy) then !(s.cell qx qy) else s.cell qx qy := by
  obtain ⟨px, py⟩ := p
  unfold drawCell
  rw [cell_toggle _ _ _ _ _ hp.1 hp.2]
  have : ∀ t : State, (if s.cell px py then s.setReg flagReg 1 else s) = t → t.cell qx qy = s.cell qx qy := by
    intro t ht; subst ht; split <;> rfl
  rw [this _ rfl]
  simp

theorem reg_drawCell (s : State) (p : Nat × Nat) (y : Reg) :
    (drawCell s p).reg y = if s.cell p.1 p.2 = true ∧ flagReg = y then 1 else s.reg y := by
  unfold drawCell
  rw [reg_congr (toggle_v _ _ _)]
  by_cases h : s.cell p.1 p.2 = true <;> simp [h]

/-- Drawing one cell touches only the register file and the framebuffer. -/
theorem drawCell_frame (s : State) (p : Nat × Nat) :
    drawCell s p = { s with v := (drawCell s p).v, fb := (drawCell s p).fb } := by
  unfold drawCell
  by_cases h : s.cell p.1 p.2 = true <;> simp [h] <;> rfl

theorem foldl_drawCell_frame (cells : List (Nat × Nat)) (s : State) :
    cells.foldl drawCell s = { s with v := (cells.foldl drawCell s).v, fb := (cells.foldl drawCell s).fb } := by
  induction cells generalizing s with
  | nil => rfl
  | cons p cells ih =>
    rw [List.foldl_cons, ih (drawCell s p), drawCell_frame s p]

/-- The sprite loop touches only the register file and the framebuffer. -/
theorem drawCells_frame (s : State) (cells : List (Nat × Nat)) :
    drawCells s cells = { s with v := (drawCells s cells).v, fb := (drawCells s cells).fb } := by
  unfold drawCells
  rw [foldl_drawCell_frame cells (s.setReg flagReg 0)]
  rfl

theorem cell_foldl_drawCell (cells : List (Nat × Nat)) (s : State) (hn : cells.Nodup)
    (hs : ∀ p ∈ cells, OnScreen p) (qx qy : Nat) :
    (cells.foldl drawCell s).cell qx qy = if (qx, qy) ∈ cells then !(s.cell qx qy) else s.cell qx qy := by
  induction cells generalizing s with
  | nil => simp
  | cons p cells ih =>
    rw [List.nodup_cons] at hn
    rw [List.foldl_cons, ih _ hn.2 fun q hq => hs q (List.mem_cons_of_mem _ hq),
      cell_drawCell s p (hs p List.mem_cons_self)]
    by_cases hp : p = (qx, qy)
    · have : (qx, qy) ∉ cells := hp ▸ hn.1
      simp [hp, this]
    · have : (qx, qy) ≠ p := fun e => hp e.symm
      simp [hp, List.mem_cons, this]

/-- The loop inverts exactly the cells it visits. -/
theorem cell_drawCells (s : State) (cells : List (Nat × Nat)) (hn : cells.Nodup)
    (hs : ∀ p ∈ cells, OnScreen p) (qx qy : Nat) :
    (drawCells s cells).cell qx qy = if (qx, qy) ∈ cells then !(s.cell qx qy) else s.cell qx qy := by
  unfold drawCells
  rw [cell_foldl_drawCell cells _ hn hs]
  rfl

theorem reg_foldl_drawCell_other (cells : List (Nat × Nat)) (s : State) (y : Reg) (h : flagReg ≠ y) :
    (cells.foldl drawCell s).reg y = s.reg y := by
  induction cells generalizing s with
  | nil => rfl
  | cons p cells ih => rw [List.foldl_cons, ih, reg_drawCell]; simp [h]

/-- The loop leaves every register but the flag register alone. -/
theorem reg_drawCells_other (s : State) (cells : List (Nat × Nat)) (y : Reg) (h : y ≠ flagReg) :
    (drawCells s cells).reg y = s.reg y := by
  unfold drawCells
  rw [reg_foldl_drawCell_other cells _ y (Ne.symm h)]
  simp [Ne.symm h]

theorem flag_foldl_drawCell (cells : List (Nat × Nat)) (s : State) (hn : cells.Nodup)
    (hs : ∀ p ∈ cells, OnScreen p) :
    (cells.foldl drawCell s).reg flagReg = if ∃ p ∈ cells, s.cell p.1 p.2 = true then 1 else s.reg flagReg := by
  induction cells generalizing s with
  | nil => simp
  | cons p cells ih =>
    rw [List.nodup_cons] at hn
    rw [List.foldl_cons, ih _ hn.2 fun q hq => hs q (List.mem_cons_of_mem _ hq)]
    have hc : ∀ q ∈ cells, (drawCell s p).cell q.1 q.2 = s.cell q.1 q.2 := by
      intro q hq
      rw [cell_drawCell s p (hs p List.mem_cons_self)]
      have : p ≠ (q.1, q.2) := fun e => hn.1 (e ▸ hq)
      simp [this]
    have he : (∃ q ∈ cells, (drawCell s p).cell q.1 q.2 = true) ↔ ∃ q ∈ cells, s.cell q.1 q.2 = true :=
      ⟨fun ⟨q, hq, h⟩ => ⟨q, hq, hc q hq ▸ h⟩, fun ⟨q, hq, h⟩ => ⟨q, hq, (hc q hq).symm ▸ h⟩⟩
    have hm : (∃ q ∈ p :: cells, s.cell q.1 q.2 = true) ↔
        s.cell p.1 p.2 = true ∨ ∃ q ∈ cells, s.cell q.1 q.2 = true := by simp
    by_cases h2 : ∃ q ∈ cells, s.cell q.1 q.2 = true
    · rw [if_pos (he.mpr h2), if_pos (hm.mpr (.inr h2))]
    · rw [if_neg fun e => h2 (he.mp e), reg_drawCell]
      exact if_congr (by rw [hm, or_iff_left h2]; simp) rfl rfl

/-- The flag after the loop: 1 exactly when a visited cell was on before the draw. -/
theorem flag_drawCells (s : State) (cells : List (Nat × Nat)) (hn : cells.Nodup) (hs : ∀ p ∈ cells, OnScreen p) :
    (drawCells s cells).reg flagReg = if ∃ p ∈ cells, s.cell p.1 p.2 = true then 1 else 0 := by
  unfold drawCells
  rw [flag_foldl_drawCell cells _ hn hs]
  simp only [reg_setReg_self]
  rfl

end Sys2Proof.Machine
end

