-- ==== Sys2Proof/Laws/Exec.lean ====
section
/-! SUPPORT. What `exec` is at each constructor, over the shared operations: the equations later proofs rewrite with
instead of unfolding `exec`. -/

namespace Sys2Proof.Machine

variable (s : State)

theorem exec_cls : exec .cls s =
    .next s.clearFb := rfl
theorem exec_ret : exec .ret s =
    if h : 0 < s.sp.val then .next (s.pop h) else raise .stackUnderflow s := rfl
theorem exec_jp (addr : Addr) : exec (.jp addr) s =
    .next (s.setPc (zextAddr addr)) := rfl
theorem exec_call (addr : Addr) : exec (.call addr) s =
    if h : s.sp.val < 16 then .next ((s.push h).setPc (zextAddr addr)) else raise .stackOverflow s := rfl
theorem exec_seImm (x : Reg) (kk : Byte) : exec (.seImm x kk) s =
    .next (if s.reg x = kk then s.skip else s) := rfl
theorem exec_sneImm (x : Reg) (kk : Byte) : exec (.sneImm x kk) s =
    .next (if s.reg x ≠ kk then s.skip else s) := rfl
theorem exec_seReg (x y : Reg) : exec (.seReg x y) s =
    .next (if s.reg x = s.reg y then s.skip else s) := rfl
theorem exec_ldImm (x : Reg) (kk : Byte) : exec (.ldImm x kk) s =
    .next (s.setReg x kk) := rfl
theorem exec_addImm (x : Reg) (kk : Byte) : exec (.addImm x kk) s =
    .next (s.setReg x (s.reg x + kk)) := rfl
theorem exec_ldReg (x y : Reg) : exec (.ldReg x y) s =
    .next (s.setReg x (s.reg y)) := rfl
theorem exec_or (x y : Reg) : exec (.or x y) s =
    .next (s.setReg x (s.reg x ||| s.reg y)) := rfl
theorem exec_and (x y : Reg) : exec (.and x y) s =
    .next (s.setReg x (s.reg x &&& s.reg y)) := rfl
theorem exec_xor (x y : Reg) : exec (.xor x y) s =
    .next (s.setReg x (s.reg x ^^^ s.reg y)) := rfl
theorem exec_addReg (x y : Reg) : exec (.addReg x y) s =
    .next (s.setFlagThenReg (carryFlag (s.reg x) (s.reg y)) x (s.reg x + s.reg y)) := rfl
theorem exec_sub (x y : Reg) : exec (.sub x y) s =
    .next (s.setFlagThenReg (greaterFlag (s.reg x) (s.reg y)) x (s.reg x - s.reg y)) := rfl
theorem exec_shr (x y : Reg) : exec (.shr x y) s =
    .next (s.setFlagThenReg (lowBitFlag (s.reg x)) x (s.reg x >>> 1)) := rfl
theorem exec_subn (x y : Reg) : exec (.subn x y) s =
    .next (s.setFlagThenReg (greaterFlag (s.reg y) (s.reg x)) x (s.reg y - s.reg x)) := rfl
theorem exec_shl (x y : Reg) : exec (.shl x y) s =
    .next (s.setFlagThenReg (highBitFlag (s.reg x)) x (s.reg x <<< 1)) := rfl
theorem exec_sneReg (x y : Reg) : exec (.sneReg x y) s =
    .next (if s.reg x ≠ s.reg y then s.skip else s) := rfl
theorem exec_ldI (addr : Addr) : exec (.ldI addr) s =
    .next (s.setI (zextAddr addr)) := rfl
theorem exec_jpV0 (addr : Addr) : exec (.jpV0 addr) s =
    .next (s.setPc (zextAddr addr + zextByte (s.reg 0))) := rfl
theorem exec_rnd (x : Reg) (kk : Byte) : exec (.rnd x kk) s =
    .next { s.setReg x (Config.rnd s.draws &&& kk) with draws := s.draws + 1 } := rfl
theorem exec_drw (x y : Reg) (n : Fin 16) : exec (.drw x y n) s =
    guardGroup s n.val fun s =>
      drawCells s (spriteCells (originX (s.reg x)) (originY (s.reg y)) (memReadList s.mem (ea s 0) n.val)) := rfl
theorem exec_skp (x : Reg) : exec (.skp x) s =
    guardKey s (s.reg x) fun s => if keyDown s (s.reg x).toNat then s.skip else s := rfl
theorem exec_sknp (x : Reg) : exec (.sknp x) s =
    guardKey s (s.reg x) fun s => if keyDown s (s.reg x).toNat then s else s.skip := rfl
theorem exec_ldVxDT (x : Reg) : exec (.ldVxDT x) s =
    .next (s.setReg x s.dt) := rfl
theorem exec_ldVxK (x : Reg) : exec (.ldVxK x) s =
    match lowestKey s with
    | some k => .next (s.setReg x (BitVec.ofNat 8 k))
    | none => .next s.rewind := rfl
theorem exec_ldDTVx (x : Reg) : exec (.ldDTVx x) s =
    .next (s.setDT (s.reg x)) := rfl
theorem exec_ldSTVx (x : Reg) : exec (.ldSTVx x) s =
    .next (s.setST (s.reg x)) := rfl
theorem exec_addI (x : Reg) : exec (.addI x) s =
    .next (s.setI (s.i + zextByte (s.reg x))) := rfl
theorem exec_ldF (x : Reg) : exec (.ldF x) s =
    if 15 < (s.reg x).toNat then raise (.fontRange (s.reg x)) s else .next (s.setI (glyphAddr (s.reg x))) := rfl
theorem exec_ldB (x : Reg) : exec (.ldB x) s =
    guardGroup s 3 fun s => s.storeBytes (ea s 0) (bcdDigits (s.reg x)) := rfl
theorem exec_ldIVx (x : Reg) : exec (.ldIVx x) s =
    guardGroup s (x.val + 1) fun s => s.storeBytes (ea s 0) (regsUpTo s x) := rfl
theorem exec_ldVxI (x : Reg) : exec (.ldVxI x) s =
    guardGroup s (x.val + 1) fun s => s.loadRegs (ea s 0) x := rfl

end Sys2Proof.Machine
end

