-- ==== Sys2Proof/Laws/Host.lean ====
section
/-! SUPPORT. The host's operations (rules R166 to R169, R187, R188): what each answers between two cycle operations, and
that none answers inside one. -/

namespace Sys2Proof.Machine

variable {s : State}

theorem betweenCycles_iff : s.betweenCycles = true ↔ s.stepsDone = 0 := by simp [State.betweenCycles]

theorem whenBetweenCycles_idle {α : Type} {act : Host.Outcome α Fault Refusal} (h : s.stepsDone = 0) :
    whenBetweenCycles s act = act := by simp [whenBetweenCycles, betweenCycles_iff, h]

theorem whenBetweenCycles_inside {α : Type} {act : Host.Outcome α Fault Refusal} (h : s.stepsDone ≠ 0) :
    whenBetweenCycles s act = .refused .hostInsideCycle := by simp [whenBetweenCycles, betweenCycles_iff, h]

/-- An operation of the host that answers was made between two cycle operations. -/
theorem whenBetweenCycles_cases {α : Type} {act : Host.Outcome α Fault Refusal} {a : α}
    (h : whenBetweenCycles s act = .next a) : s.stepsDone = 0 ∧ act = .next a := by
  by_cases h0 : s.stepsDone = 0
  · exact ⟨h0, by rwa [whenBetweenCycles_idle h0] at h⟩
  · rw [whenBetweenCycles_inside h0] at h; cases h

/-- A cycle operation of a loaded machine is its batch followed by its end. -/
theorem cycleOf_loaded (n : Nat) (h : s.stepsDone = 0) (hl : s.romLoaded = true) :
    cycleOf n s = andThen (runBatch n s) fun p => .next (endCycle p.1, p.2) := by
  rw [cycleOf, whenBetweenCycles_idle h, if_pos hl]

/-- A cycle operation that answers began between two others, on a loaded machine, and is its batch and its end. -/
theorem cycleOf_cases {n : Nat} {p : State × List StepReport} (h : cycleOf n s = .next p) :
    s.stepsDone = 0 ∧ s.romLoaded = true ∧ ∃ t, runBatch n s = .next (t, p.2) ∧ p.1 = endCycle t := by
  obtain ⟨h0, h⟩ := whenBetweenCycles_cases h
  split at h
  · rename_i hl
    obtain ⟨⟨t, reports⟩, hb, h⟩ := andThen_eq_next.mp h
    cases h
    exact ⟨h0, hl, t, hb, rfl⟩
  · cases h

theorem hostReset_idle (h : s.stepsDone = 0) :
    hostReset s = .next { State.reset with draws := s.draws, keyWrites := s.keyWrites } := whenBetweenCycles_idle h

theorem hostWriteKeypad_idle (k : BitVec 16) (h : s.stepsDone = 0) : hostWriteKeypad k s = .next { s with key := k } :=
  whenBetweenCycles_idle h

theorem hostReadFramebuffer_idle (h : s.stepsDone = 0) : hostReadFramebuffer s = .next (framebufferCells s) :=
  whenBetweenCycles_idle h

/-- A ROM load that answers was the first since reset, before the first cycle, and the image fits. -/
theorem hostLoadRom_cases {rom : List Byte} {t : State} (h : hostLoadRom rom s = .next t) :
    s.stepsDone = 0 ∧ s.cycles = 0 ∧ s.romLoaded = false ∧ romWellFormed rom = true ∧
      t = { s.storeBytes Config.romBase rom with romLoaded := true } := by
  obtain ⟨h0, h⟩ := whenBetweenCycles_cases h
  split at h
  · cases h
  · split at h
    · cases h
    · split at h
      · cases h
        rename_i hc hl hw
        exact ⟨h0, by simpa using hc, by simpa using hl, hw, rfl⟩
      · cases h

end Sys2Proof.Machine
end

