-- ==== Sys2Proof/Laws/PerInstr.lean ====
section
/-! SUPPORT. A law for each instruction: the word it encodes to is a well-formed word, none of the unrecognised words
that rule R66 lists class by class. -/

namespace Sys2Proof.Laws.WellFormedWord

/-- The instruction's word is recognised (rules R64, R66). -/
def Statement (i : Instr) : Prop := wordWellFormed (encode i) = true

/-- A word of a leading nibble whose words are all recognised (rule R66 lists none of them). -/
theorem of_free_major {w : Word} (h : w.toNat / 0x1000 ∈ [1, 2, 3, 4, 6, 7, 0xA, 0xB, 0xC, 0xD]) :
    wordWellFormed w = true := by
  have h0 : ¬ w.toNat < 0x1000 := by
    intro hl
    rw [Nat.div_eq_of_lt hl] at h
    simp at h
  have h5 : w.toNat / 0x1000 ≠ 5 := by intro e; rw [e] at h; simp at h
  have h8 : w.toNat / 0x1000 ≠ 8 := by intro e; rw [e] at h; simp at h
  have h9 : w.toNat / 0x1000 ≠ 9 := by intro e; rw [e] at h; simp at h
  have hE : w.toNat / 0x1000 ≠ 0xE := by intro e; rw [e] at h; simp at h
  have hF : w.toNat / 0x1000 ≠ 0xF := by intro e; rw [e] at h; simp at h
  simp [wordWellFormed, unrecognised, unusedZero, unusedFive, unusedEight, unusedNine, unusedE, unusedF,
    Nat.not_lt.mp h0, h5, h8, h9, hE, hF]

/-- A word of the 0x5 or 0x9 group with trailing nibble 0 (rule R67). -/
theorem of_trailing_zero {w : Word} (h : w.toNat / 0x1000 = 5 ∨ w.toNat / 0x1000 = 9) (h' : w.toNat % 16 = 0) :
    wordWellFormed w = true := by
  have h0 : ¬ w.toNat < 0x1000 := by omega
  rcases h with h | h <;>
    simp [wordWellFormed, unrecognised, unusedZero, unusedFive, unusedEight, unusedNine, unusedE, unusedF,
      Nat.not_lt.mp h0, h, h']

/-- A word of the 0x8 group with a trailing nibble in use (rule R66). -/
theorem of_eight {w : Word} (h : w.toNat / 0x1000 = 8) (h' : w.toNat % 16 ∈ [0, 1, 2, 3, 4, 5, 6, 7, 0xE]) :
    wordWellFormed w = true := by
  have h0 : ¬ w.toNat < 0x1000 := by omega
  have h8 : [0x8, 0x9, 0xA, 0xB, 0xC, 0xD, 0xF].contains (w.toNat % 16) = false := by
    generalize w.toNat % 16 = k at h'
    revert k; decide
  simp [wordWellFormed, unrecognised, unusedZero, unusedFive, unusedEight, unusedNine, unusedE, unusedF,
    Nat.not_lt.mp h0, h, -List.contains_eq_mem, h8]

/-- A word of the 0xE group with a trailing byte in use (rule R66). -/
theorem of_E {w : Word} (h : w.toNat / 0x1000 = 0xE) (h' : w.toNat % 256 ∈ [0x9E, 0xA1]) :
    wordWellFormed w = true := by
  have h0 : ¬ w.toNat < 0x1000 := by omega
  have hE : [0x9E, 0xA1].contains (w.toNat % 256) = true := by simpa using h'
  simp [wordWellFormed, unrecognised, unusedZero, unusedFive, unusedEight, unusedNine, unusedE, unusedF,
    Nat.not_lt.mp h0, h, -List.contains_eq_mem, hE]

/-- A word of the 0xF group with a trailing byte in use (rule R66). -/
theorem of_F {w : Word} (h : w.toNat / 0x1000 = 0xF)
    (h' : w.toNat % 256 ∈ [0x07, 0x0A, 0x15, 0x18, 0x1E, 0x29, 0x33, 0x55, 0x65]) : wordWellFormed w = true := by
  have h0 : ¬ w.toNat < 0x1000 := by omega
  have hF : [0x07, 0x0A, 0x15, 0x18, 0x1E, 0x29, 0x33, 0x55, 0x65].contains (w.toNat % 256) = true := by
    simpa using h'
  simp [wordWellFormed, unrecognised, unusedZero, unusedFive, unusedEight, unusedNine, unusedE, unusedF,
    Nat.not_lt.mp h0, h, -List.contains_eq_mem, hF]

/-! The leading nibble and the trailing discriminator of each format, where the row has them (rule R61). -/

theorem div_encNNN (v : Word) (a : Addr) : (encNNN v a).toNat / 0x1000 = v.toNat / 0x1000 := by
  rw [toNat_encNNN]; have := a.isLt; omega
theorem div_encXKK (v : Word) (x : Reg) (kk : Byte) : (encXKK v x kk).toNat / 0x1000 = v.toNat / 0x1000 := by
  rw [toNat_encXKK]; have := kk.isLt; omega
theorem div_encX (v : Word) (x : Reg) : (encX v x).toNat / 0x1000 = v.toNat / 0x1000 := by
  rw [toNat_encX]; omega
theorem mod_encX (v : Word) (x : Reg) : (encX v x).toNat % 256 = v.toNat % 256 := by
  rw [toNat_encX]; omega
theorem div_encXY (v : Word) (x y : Reg) : (encXY v x y).toNat / 0x1000 = v.toNat / 0x1000 := by
  rw [toNat_encXY]; omega
theorem mod_encXY (v : Word) (x y : Reg) : (encXY v x y).toNat % 16 = v.toNat % 16 := by
  rw [toNat_encXY]; omega
theorem div_encXYN (v : Word) (x y n : Fin 16) : (encXYN v x y n).toNat / 0x1000 = v.toNat / 0x1000 := by
  rw [toNat_encXYN]; omega

theorem cls : Statement .cls := by
  unfold Statement; decide
theorem ret : Statement .ret := by
  unfold Statement; decide
theorem jp (addr : Addr) : Statement (.jp addr) :=
  of_free_major (by rw [encode, opOf, encodeWith, div_encNNN]; decide)
theorem call (addr : Addr) : Statement (.call addr) :=
  of_free_major (by rw [encode, opOf, encodeWith, div_encNNN]; decide)
theorem seImm (x : Reg) (kk : Byte) : Statement (.seImm x kk) :=
  of_free_major (by rw [encode, opOf, encodeWith, div_encXKK]; decide)
theorem sneImm (x : Reg) (kk : Byte) : Statement (.sneImm x kk) :=
  of_free_major (by rw [encode, opOf, encodeWith, div_encXKK]; decide)
theorem seReg (x : Reg) (y : Reg) : Statement (.seReg x y) :=
  of_trailing_zero (by rw [encode, opOf, encodeWith, div_encXY]; decide)
    (by rw [encode, opOf, encodeWith, mod_encXY]; decide)
theorem ldImm (x : Reg) (kk : Byte) : Statement (.ldImm x kk) :=
  of_free_major (by rw [encode, opOf, encodeWith, div_encXKK]; decide)
theorem addImm (x : Reg) (kk : Byte) : Statement (.addImm x kk) :=
  of_free_major (by rw [encode, opOf, encodeWith, div_encXKK]; decide)
theorem ldReg (x : Reg) (y : Reg) : Statement (.ldReg x y) :=
  of_eight (by rw [encode, opOf, encodeWith, div_encXY]; decide)
    (by rw [encode, opOf, encodeWith, mod_encXY]; decide)
theorem or (x : Reg) (y : Reg) : Statement (.or x y) :=
  of_eight (by rw [encode, opOf, encodeWith, div_encXY]; decide)
    (by rw [encode, opOf, encodeWith, mod_encXY]; decide)
theorem and (x : Reg) (y : Reg) : Statement (.and x y) :=
  of_eight (by rw [encode, opOf, encodeWith, div_encXY]; decide)
    (by rw [encode, opOf, encodeWith, mod_encXY]; decide)
theorem xor (x : Reg) (y : Reg) : Statement (.xor x y) :=
  of_eight (by rw [encode, opOf, encodeWith, div_encXY]; decide)
    (by rw [encode, opOf, encodeWith, mod_encXY]; decide)
theorem addReg (x : Reg) (y : Reg) : Statement (.addReg x y) :=
  of_eight (by rw [encode, opOf, encodeWith, div_encXY]; decide)
    (by rw [encode, opOf, encodeWith, mod_encXY]; decide)
theorem sub (x : Reg) (y : Reg) : Statement (.sub x y) :=
  of_eight (by rw [encode, opOf, encodeWith, div_encXY]; decide)
    (by rw [encode, opOf, encodeWith, mod_encXY]; decide)
theorem shr (x : Reg) (y : Reg) : Statement (.shr x y) :=
  of_eight (by rw [encode, opOf, encodeWith, div_encXY]; decide)
    (by rw [encode, opOf, encodeWith, mod_encXY]; decide)
theorem subn (x : Reg) (y : Reg) : Statement (.subn x y) :=
  of_eight (by rw [encode, opOf, encodeWith, div_encXY]; decide)
    (by rw [encode, opOf, encodeWith, mod_encXY]; decide)
theorem shl (x : Reg) (y : Reg) : Statement (.shl x y) :=
  of_eight (by rw [encode, opOf, encodeWith, div_encXY]; decide)
    (by rw [encode, opOf, encodeWith, mod_encXY]; decide)
theorem sneReg (x : Reg) (y : Reg) : Statement (.sneReg x y) :=
  of_trailing_zero (by rw [encode, opOf, encodeWith, div_encXY]; decide)
    (by rw [encode, opOf, encodeWith, mod_encXY]; decide)
theorem ldI (addr : Addr) : Statement (.ldI addr) :=
  of_free_major (by rw [encode, opOf, encodeWith, div_encNNN]; decide)
theorem jpV0 (addr : Addr) : Statement (.jpV0 addr) :=
  of_free_major (by rw [encode, opOf, encodeWith, div_encNNN]; decide)
theorem rnd (x : Reg) (kk : Byte) : Statement (.rnd x kk) :=
  of_free_major (by rw [encode, opOf, encodeWith, div_encXKK]; decide)
theorem drw (x : Reg) (y : Reg) (n : Fin 16) : Statement (.drw x y n) :=
  of_free_major (by rw [encode, opOf, encodeWith, div_encXYN]; decide)
theorem skp (x : Reg) : Statement (.skp x) :=
  of_E (by rw [encode, opOf, encodeWith, div_encX]; decide)
    (by rw [encode, opOf, encodeWith, mod_encX]; decide)
theorem sknp (x : Reg) : Statement (.sknp x) :=
  of_E (by rw [encode, opOf, encodeWith, div_encX]; decide)
    (by rw [encode, opOf, encodeWith, mod_encX]; decide)
theorem ldVxDT (x : Reg) : Statement (.ldVxDT x) :=
  of_F (by rw [encode, opOf, encodeWith, div_encX]; decide)
    (by rw [encode, opOf, encodeWith, mod_encX]; decide)
theorem ldVxK (x : Reg) : Statement (.ldVxK x) :=
  of_F (by rw [encode, opOf, encodeWith, div_encX]; decide)
    (by rw [encode, opOf, encodeWith, mod_encX]; decide)
theorem ldDTVx (x : Reg) : Statement (.ldDTVx x) :=
  of_F (by rw [encode, opOf, encodeWith, div_encX]; decide)
    (by rw [encode, opOf, encodeWith, mod_encX]; decide)
theorem ldSTVx (x : Reg) : Statement (.ldSTVx x) :=
  of_F (by rw [encode, opOf, encodeWith, div_encX]; decide)
    (by rw [encode, opOf, encodeWith, mod_encX]; decide)
theorem addI (x : Reg) : Statement (.addI x) :=
  of_F (by rw [encode, opOf, encodeWith, div_encX]; decide)
    (by rw [encode, opOf, encodeWith, mod_encX]; decide)
theorem ldF (x : Reg) : Statement (.ldF x) :=
  of_F (by rw [encode, opOf, encodeWith, div_encX]; decide)
    (by rw [encode, opOf, encodeWith, mod_encX]; decide)
theorem ldB (x : Reg) : Statement (.ldB x) :=
  of_F (by rw [encode, opOf, encodeWith, div_encX]; decide)
    (by rw [encode, opOf, encodeWith, mod_encX]; decide)
theorem ldIVx (x : Reg) : Statement (.ldIVx x) :=
  of_F (by rw [encode, opOf, encodeWith, div_encX]; decide)
    (by rw [encode, opOf, encodeWith, mod_encX]; decide)
theorem ldVxI (x : Reg) : Statement (.ldVxI x) :=
  of_F (by rw [encode, opOf, encodeWith, div_encX]; decide)
    (by rw [encode, opOf, encodeWith, mod_encX]; decide)

end Sys2Proof.Laws.WellFormedWord
end

