-- ==== Sys2Proof/Tests/Slice0.lean ====
section
/-! SUPPORT. Tests. Expected results come from the spec: the encodings of rule R64, the worked examples of the rules, and
the vectors of 95_test_vectors.md, whose number each test names. Every test of an instruction takes ONE step from a small
state, with the instruction's word placed where the step fetches it. -/

namespace Sys2Proof.Tests

open Sys2Proof.Machine

/-- The state one instruction step gives, the word placed at `pc` first. -/
def after (s : State) (w : Nat) : State :=
  match instrStep (s.withFetchWord 16 w) with
  | .next t => t
  | _ => s

/-- The state an answer holds. -/
def stateOf (r : Result) : State :=
  match r with
  | .next t => t
  | _ => State.reset

/-- Reset with two registers set. -/
def regs2 (x : Reg) (a : Byte) (y : Reg) (b : Byte) : State := (State.reset.setReg x a).setReg y b

/-- Reset with `I` set and a byte stored at it. -/
def atI (i : Word) (bs : List Byte) : State := (State.reset.setI i).storeBytes i.toNat bs

/-! ## Well-formedness: each check refuses an ill-formed term (rules R66, R185) -/

theorem test_illformed_zero : wordWellFormed 0x0000 = false := by decide
theorem test_illformed_five : wordWellFormed 0x5121 = false := by decide
theorem test_illformed_eight : wordWellFormed 0x800F = false := by decide
theorem test_illformed_nine : wordWellFormed 0x912F = false := by decide
theorem test_illformed_E : wordWellFormed 0xE19F = false := by decide
theorem test_illformed_F : wordWellFormed 0xF066 = false := by decide
theorem test_wellformed_cls : wordWellFormed 0x00E0 = true := by decide
/-- Z3: a ROM of 3584 bytes is accepted. -/
theorem test_rom_fits : romWellFormed (List.replicate 3584 0) = true := by
  simp only [romWellFormed, List.length_replicate]; decide
/-- Z4: a ROM of 3585 bytes is refused. -/
theorem test_rom_too_large : romWellFormed (List.replicate 3585 0) = false := by
  simp only [romWellFormed, List.length_replicate]; decide

/-! ## Decoding: every constructor's word written bit by bit from the encoding column of the opcode table -/

theorem test_decode_cls : decodeWord 0b0000000011100000 = .ok .cls := by decide
theorem test_decode_ret : decodeWord 0b0000000011101110 = .ok .ret := by decide
theorem test_decode_jp : decodeWord 0b0001001000110100 = .ok (.jp 0x234) := by decide
theorem test_decode_call : decodeWord 0b0010001100000000 = .ok (.call 0x300) := by decide
theorem test_decode_seImm : decodeWord 0b0011001100101010 = .ok (.seImm 3 0x2A) := by decide
theorem test_decode_sneImm : decodeWord 0b0100001100101010 = .ok (.sneImm 3 0x2A) := by decide
theorem test_decode_seReg : decodeWord 0b0101000100100000 = .ok (.seReg 1 2) := by decide
theorem test_decode_ldImm : decodeWord 0b0110101000101111 = .ok (.ldImm 10 0x2F) := by decide
theorem test_decode_addImm : decodeWord 0b0111001000100000 = .ok (.addImm 2 0x20) := by decide
theorem test_decode_ldReg : decodeWord 0b1000001101000000 = .ok (.ldReg 3 4) := by decide
theorem test_decode_or : decodeWord 0b1000000100100001 = .ok (.or 1 2) := by decide
theorem test_decode_and : decodeWord 0b1000000100100010 = .ok (.and 1 2) := by decide
theorem test_decode_xor : decodeWord 0b1000000100100011 = .ok (.xor 1 2) := by decide
theorem test_decode_addReg : decodeWord 0b1000000100100100 = .ok (.addReg 1 2) := by decide
theorem test_decode_sub : decodeWord 0b1000000100100101 = .ok (.sub 1 2) := by decide
theorem test_decode_shr : decodeWord 0b1000000100100110 = .ok (.shr 1 2) := by decide
theorem test_decode_subn : decodeWord 0b1000000100100111 = .ok (.subn 1 2) := by decide
theorem test_decode_shl : decodeWord 0b1000001100001110 = .ok (.shl 3 0) := by decide
theorem test_decode_sneReg : decodeWord 0b1001000100100000 = .ok (.sneReg 1 2) := by decide
theorem test_decode_ldI : decodeWord 0b1010001011110000 = .ok (.ldI 0x2F0) := by decide
theorem test_decode_jpV0 : decodeWord 0b1011001100000000 = .ok (.jpV0 0x300) := by decide
theorem test_decode_rnd : decodeWord 0b1100010100001111 = .ok (.rnd 5 0x0F) := by decide
theorem test_decode_drw : decodeWord 0b1101000000010101 = .ok (.drw 0 1 5) := by decide
theorem test_decode_skp : decodeWord 0b1110001010011110 = .ok (.skp 2) := by decide
theorem test_decode_sknp : decodeWord 0b1110001010100001 = .ok (.sknp 2) := by decide
theorem test_decode_ldVxDT : decodeWord 0b1111010000000111 = .ok (.ldVxDT 4) := by decide
theorem test_decode_ldVxK : decodeWord 0b1111010100001010 = .ok (.ldVxK 5) := by decide
theorem test_decode_ldDTVx : decodeWord 0b1111010000010101 = .ok (.ldDTVx 4) := by decide
theorem test_decode_ldSTVx : decodeWord 0b1111010000011000 = .ok (.ldSTVx 4) := by decide
theorem test_decode_addI : decodeWord 0b1111001000011110 = .ok (.addI 2) := by decide
theorem test_decode_ldF : decodeWord 0b1111001100101001 = .ok (.ldF 3) := by decide
theorem test_decode_ldB : decodeWord 0b1111000000110011 = .ok (.ldB 0) := by decide
theorem test_decode_ldIVx : decodeWord 0b1111001001010101 = .ok (.ldIVx 2) := by decide
theorem test_decode_ldVxI : decodeWord 0b1111001001100101 = .ok (.ldVxI 2) := by decide
/-- F23 and F24. -/
theorem test_decode_unknown : decodeWord 0x5121 = .error (.unknownOpcode 0x5121) ∧
    decodeWord 0x0000 = .error (.unknownOpcode 0x0000) := by decide
/-- Rule R60: fewer than two bytes are no instruction. -/
theorem test_decode_truncated : decodeBytes [0x12] = .error .truncated := by decide
/-- Rule R42: the byte at the lower address is the high byte. -/
theorem test_decode_bytes : decodeBytes [0x60, 0x05, 0x61] = .ok (.ldImm 0 5, [0x61]) := by decide
theorem test_encode_jp : encodeBytes (.jp 0x208) = [0x12, 0x08] := by decide
theorem test_decodeTableWord : decodeTableWord 16 0xD125 = some (.drw 1 2 5) := by decide

/-! ## Reset and fetch -/

/-- Z1. -/
theorem test_reset_font : [0x050, 0x054, 0x055, 0x09F, 0x04F, 0x0A0, 0x200].map State.reset.readMem =
    [0xF0, 0xF0, 0x20, 0x80, 0x00, 0x00, 0x00] := by decide
/-- Z2: the first step of an empty machine reports the word 0x0000 fetched from 0x200. -/
theorem test_reset_step : (stateOf (instrStep State.reset)).pc = 0x0202 ∧
    (stateOf (instrStep State.reset)).report = ⟨.unknownOpcode 0, 0x0200⟩ := by decide
/-- F21. -/
theorem test_fetch_top : (stateOf (instrStep (State.reset.setPc 0x0FFF))).pc = 0x1001 ∧
    (stateOf (instrStep (State.reset.setPc 0x0FFF))).report = ⟨.memRange 0x1000, 0x0FFF⟩ := by decide
/-- F22. -/
theorem test_fetch_wraps : (stateOf (instrStep (State.reset.setPc 0xFFFE))).pc = 0x0000 ∧
    (stateOf (instrStep (State.reset.setPc 0xFFFE))).report = ⟨.memRange 0xFFFE, 0xFFFE⟩ := by decide
/-- `step` runs a word placed by `withFetchWord`, from reset. -/
theorem test_step_runs_placed_word : (stateOf (step (State.reset.withFetchWord 16 0x6A2F))).reg 10 = 0x2F := by decide

/-! ## Control transfer -/

/-- F1. -/
theorem test_jp : (after State.reset 0x1234).pc = 0x0234 := by decide
/-- F4. -/
theorem test_call_sixteenth : (after { State.reset.setPc 0x0FFE with sp := 15 } 0x2ABC).sp = 16 ∧
    (after { State.reset.setPc 0x0FFE with sp := 15 } 0x2ABC).stk[15] = 0x1000 ∧
    (after { State.reset.setPc 0x0FFE with sp := 15 } 0x2ABC).pc = 0x0ABC := by decide
/-- F5. -/
theorem test_call_overflow : (after { State.reset with sp := 16 } 0x2300).pc = 0x0202 ∧
    (after { State.reset with sp := 16 } 0x2300).report.error = .stackOverflow := by decide
/-- F6. -/
theorem test_ret : (after { State.reset.setPc 0x0300 with sp := 1, stk := State.reset.stk.set 0 0x0204 } 0x00EE).pc
    = 0x0204 := by decide
/-- F8. -/
theorem test_ret_underflow : (after State.reset 0x00EE).pc = 0x0202 ∧ (after State.reset 0x00EE).sp = 0 ∧
    (after State.reset 0x00EE).report.error = .stackUnderflow := by decide
/-- F11 and F12. -/
theorem test_seImm : (after (State.reset.setReg 3 0x2A) 0x332A).pc = 0x0204 ∧
    (after (State.reset.setReg 3 0x2B) 0x332A).pc = 0x0202 := by decide
/-- F13 and F14. -/
theorem test_sneImm : (after (State.reset.setReg 3 0x2A) 0x432A).pc = 0x0202 ∧
    (after State.reset 0x432A).pc = 0x0204 := by decide
/-- F15 and F16. -/
theorem test_seReg : (after (regs2 1 7 2 7) 0x5120).pc = 0x0204 ∧ (after (regs2 1 7 2 8) 0x5120).pc = 0x0202 := by
  decide
/-- F17 and F19. -/
theorem test_sneReg : (after (regs2 1 7 2 8) 0x9120).pc = 0x0204 ∧ (after State.reset 0x9440).pc = 0x0202 := by decide
/-- F10. -/
theorem test_jpV0 : (after (State.reset.setReg 0 0xFF) 0xBFFF).pc = 0x10FE := by decide

/-! ## Registers, arithmetic, logic -/

/-- A1. -/
theorem test_ldImm : (after State.reset 0x6A2F).reg 10 = 0x2F := by decide
/-- A2. -/
theorem test_addImm : (after (regs2 2 0xF0 15 0x55) 0x7220).reg 2 = 0x10 ∧
    (after (regs2 2 0xF0 15 0x55) 0x7220).reg 15 = 0x55 := by decide
/-- A5. -/
theorem test_ldReg : (after (State.reset.setReg 4 0x99) 0x8340).reg 3 = 0x99 := by decide
/-- A6. -/
theorem test_or : (after (regs2 1 0xF0 2 0x0F) 0x8121).reg 1 = 0xFF := by decide
/-- A7. -/
theorem test_and : (after (regs2 1 0xF0 2 0x3C) 0x8122).reg 1 = 0x30 := by decide
/-- A8. -/
theorem test_xor : (after (regs2 1 0xF0 2 0x3C) 0x8123).reg 1 = 0xCC := by decide
/-- A12. -/
theorem test_addReg_carry : (after (regs2 1 0x80 2 0x80) 0x8124).reg 1 = 0x00 ∧
    (after (regs2 1 0x80 2 0x80) 0x8124).reg 15 = 1 := by decide
/-- A16 and A17. -/
theorem test_addReg_flagReg : (after (regs2 15 0xF0 1 0x20) 0x8F14).reg 15 = 0x10 ∧
    (after (regs2 1 0xFE 15 0x03) 0x81F4).reg 1 = 0x01 ∧ (after (regs2 1 0xFE 15 0x03) 0x81F4).reg 15 = 1 := by decide
/-- A18 and A20. -/
theorem test_sub : (after (regs2 1 5 2 7) 0x8125).reg 1 = 0xFE ∧ (after (regs2 1 5 2 7) 0x8125).reg 15 = 0 ∧
    (after (regs2 1 7 2 7) 0x8125).reg 15 = 0 := by decide
/-- A23 and A24. -/
theorem test_sub_flagReg : (after (regs2 15 9 1 4) 0x8F15).reg 15 = 5 ∧
    (after (regs2 1 0x0A 15 9) 0x81F5).reg 1 = 1 ∧ (after (regs2 1 0x0A 15 9) 0x81F5).reg 15 = 1 := by decide
/-- A25 and A26. -/
theorem test_subn : (after (regs2 1 5 2 7) 0x8127).reg 1 = 2 ∧ (after (regs2 1 5 2 7) 0x8127).reg 15 = 1 ∧
    (after (regs2 1 7 2 5) 0x8127).reg 1 = 0xFE ∧ (after (regs2 1 7 2 5) 0x8127).reg 15 = 0 := by decide
/-- A30 and A39. -/
theorem test_shr : (after (regs2 1 5 2 0xAA) 0x8126).reg 1 = 2 ∧ (after (regs2 1 5 2 0xAA) 0x8126).reg 2 = 0xAA ∧
    (after (regs2 1 5 2 0xAA) 0x8126).reg 15 = 1 ∧ (after (State.reset.setReg 15 7) 0x8F06).reg 15 = 3 := by decide
/-- A36 and A40. -/
theorem test_shl : (after (State.reset.setReg 1 0x80) 0x812E).reg 1 = 0 ∧
    (after (State.reset.setReg 1 0x80) 0x812E).reg 15 = 1 ∧
    (after (State.reset.setReg 15 0x81) 0x8FFE).reg 15 = 2 := by decide
/-- The draw is consumed (rule R112). Its value is free, so no value of it is tested. -/
theorem test_rnd_consumes_a_draw : (after State.reset 0xC500).draws = 1 ∧ (after State.reset 0x6500).draws = 0 := by
  decide
/-- A43: mask 0 gives 0 for any draw. -/
theorem test_rnd_mask_zero : (after (State.reset.setReg 5 0xFF) 0xC500).reg 5 = 0 := BitVec.and_zero

/-! ## Framebuffer -/

/-- DR1. -/
theorem test_cls : (after (State.reset.toggle 3 4) 0x00E0).cell 3 4 = false := by decide
/-- DR4: clipped at the right edge, nothing on the next row. -/
theorem test_drw_clips : ((after ((atI 0x300 [0xFF]).setReg 0 60 |>.setReg 1 31) 0xD011).fb)[31] =
      0xF000000000000000 ∧
    ((after ((atI 0x300 [0xFF]).setReg 0 60 |>.setReg 1 31) 0xD011).fb)[0] = 0 := by decide
/-- DR7: one cell turned on, one turned off, collision. -/
theorem test_drw_collides : (after ((atI 0x300 [0xC0]).toggle 1 0) 0xD011).cell 0 0 = true ∧
    (after ((atI 0x300 [0xC0]).toggle 1 0) 0xD011).cell 1 0 = false ∧
    (after ((atI 0x300 [0xC0]).toggle 1 0) 0xD011).reg 15 = 1 := by decide
/-- DR9: squashed, not even the flag is cleared. -/
theorem test_drw_outside : (after ((atI 0x0FFF [0xFF]).setReg 15 7) 0xD012).reg 15 = 7 ∧
    (after ((atI 0x0FFF [0xFF]).setReg 15 7) 0xD012).report.error = .memRange 0x1000 := by decide
/-- DR8: no bytes, nothing to check, the flag cleared. -/
theorem test_drw_empty : (after ((State.reset.setI 0xFFFF).setReg 15 7) 0xD010).reg 15 = 0 ∧
    (after ((State.reset.setI 0xFFFF).setReg 15 7) 0xD010).report.error = .noError := by decide

/-! ## Keypad and timers -/

/-- K1 and K2. -/
theorem test_skp : (after { State.reset.setReg 1 15 with key := 0x8000 } 0xE19E).pc = 0x0204 ∧
    (after (State.reset.setReg 1 15) 0xE19E).pc = 0x0202 := by decide
/-- K4 and K5. -/
theorem test_sknp : (after (State.reset.setReg 1 15) 0xE1A1).pc = 0x0204 ∧
    (after (State.reset.setReg 1 0x1F) 0xE1A1).pc = 0x0202 ∧
    (after (State.reset.setReg 1 0x1F) 0xE1A1).report.error = .keyRange 0x1F := by decide
/-- K8. -/
theorem test_wait_lowest : (after { State.reset.setReg 1 0xEE with key := 0x8001 } 0xF10A).reg 1 = 0 ∧
    (after { State.reset.setReg 1 0xEE with key := 0x8001 } 0xF10A).pc = 0x0202 := by decide
/-- K9. -/
theorem test_wait_none : (after (State.reset.setReg 1 0xEE) 0xF10A).reg 1 = 0xEE ∧
    (after (State.reset.setReg 1 0xEE) 0xF10A).pc = 0x0200 := by decide
/-- K11. -/
theorem test_ldVxDT : (after (State.reset.setDT 0x3C) 0xF407).reg 4 = 0x3C := by decide
/-- K12. -/
theorem test_ldDTVx : (after (State.reset.setReg 4 0x3C) 0xF415).dt = 0x3C := by decide
/-- K13. -/
theorem test_ldSTVx : (after (State.reset.setReg 4 2) 0xF418).st = 2 := by decide
/-- K15 and K16. -/
theorem test_tick : (timerTick ((State.reset.setDT 1).setST 0xFF)).dt = 0 ∧
    (timerTick ((State.reset.setDT 1).setST 0xFF)).st = 0xFE ∧ (timerTick State.reset).dt = 0 := by decide

/-! ## Address register and memory -/

/-- M1. -/
theorem test_ldI : (after State.reset 0xA2F0).i = 0x02F0 := by decide
/-- M3 and M4. -/
theorem test_addI : (after ((State.reset.setI 0xFFFF).setReg 1 1) 0xF11E).i = 0 ∧
    (after ((State.reset.setI 0x0FFF).setReg 1 1) 0xF11E).i = 0x1000 := by decide
/-- M5. -/
theorem test_ldF : (after (State.reset.setReg 3 0x0A) 0xF329).i = 0x0082 := by decide
/-- M8. -/
theorem test_ldF_range : (after ((State.reset.setI 0x0123).setReg 1 0x10) 0xF129).i = 0x0123 ∧
    (after ((State.reset.setI 0x0123).setReg 1 0x10) 0xF129).report.error = .fontRange 0x10 := by decide
/-- S7. -/
theorem test_ldB : [0x300, 0x301, 0x302].map (after ((State.reset.setI 0x300).setReg 0 205) 0xF033).readMem =
    [2, 0, 5] := by decide
/-- M10. -/
theorem test_ldB_range :
    [0xFFE, 0xFFF].map (after ((State.reset.setI 0x0FFE).setReg 1 0xFF) 0xF133).readMem = [0, 0] ∧
    (after ((State.reset.setI 0x0FFE).setReg 1 0xFF) 0xF133).report.error = .memRange 0x1000 := by decide
/-- M16. -/
theorem test_ldIVx : [0x300, 0x301, 0x302].map
      (after (((regs2 0 0x11 1 0x22).setReg 2 0x33).setReg 3 0x44 |>.setI 0x300) 0xF255).readMem =
      [0x11, 0x22, 0x33] ∧
    (after (((regs2 0 0x11 1 0x22).setReg 2 0x33).setReg 3 0x44 |>.setI 0x300) 0xF255).readMem 0x303 = 0 := by decide
/-- M21: the font table is writable. -/
theorem test_ldIVx_font : (after ((State.reset.setI 0x50).setReg 0 0xAB) 0xF055).readMem 0x050 = 0xAB := by decide
/-- M17. -/
theorem test_ldVxI : (after ((atI 0x300 [0x11, 0x22, 0x33, 0x44]).setReg 3 0x99) 0xF265).reg 2 = 0x33 ∧
    (after ((atI 0x300 [0x11, 0x22, 0x33, 0x44]).setReg 3 0x99) 0xF265).reg 3 = 0x99 := by decide
/-- M20: addresses do not wrap. -/
theorem test_ldVxI_range : (after ((regs2 0 9 1 9).setI 0xFFFF) 0xF165).reg 0 = 9 ∧
    (after ((regs2 0 9 1 9).setI 0xFFFF) 0xF165).report.error = .memRange 0xFFFF := by decide
/-- Memory stays canonical: writing the reset content removes the entry. -/
theorem test_memory_canonical : memWrite (memWrite [] 0x50 0xAB) 0x50 0xF0 = [] ∧
    Memory.wf (memWrite (memWrite [] 0x300 1) 0x200 2) = true ∧ Memory.wf [(0x300, 0)] = false := by decide

/-! ## The cycle operation and the host's acts -/

/-- Reset with the eight ROM bytes of S8. -/
def s8 : State := State.reset.storeBytes 0x200 [0x60, 0x05, 0x61, 0x03, 0x80, 0x14, 0x12, 0x00]

/-- The first step of S8 as a cycle of one step: the state and the one report. -/
theorem test_cycle_of_one :
    (match cycleOf 1 { s8.setDT 2 with romLoaded := true } with
     | .next (t, reports) => decide (t.reg 0 = 5 ∧ t.dt = 1 ∧ t.cycles = 1 ∧ reports = [⟨.noError, 0x0200⟩])
     | _ => false) = true := by decide

/-- `s8` with its ROM loaded by the host's own operation. -/
def s8Loaded : State :=
  stateOf (hostLoadRom [0x60, 0x05, 0x61, 0x03, 0x80, 0x14, 0x12, 0x00] State.reset)

/-- Rule R184: the first instruction word is `b[0] ++ b[1]`, at 0x200. -/
theorem test_load_rom : s8Loaded.mem = s8.mem ∧ s8Loaded.fetch = .instr (.ldImm 0 5) ∧ s8Loaded.romLoaded = true := by
  decide
/-- Rule R188: one ROM load in a run. -/
theorem test_second_load_refused :
    (match hostLoadRom [0x00, 0xE0] s8Loaded with
     | .refused r => decide (r = .romAlreadyLoaded)
     | _ => false) = true := by decide
/-- Rules R168, R187, R169: no framebuffer read and no second cycle inside a cycle. -/
theorem test_inside_cycle_refused :
    (match hostReadFramebuffer { s8Loaded with stepsDone := 1 } with
     | .refused r => decide (r = .hostInsideCycle)
     | _ => false) = true ∧
    (match cycle { s8Loaded with stepsDone := 1 } with
     | .refused r => decide (r = .hostInsideCycle)
     | _ => false) = true := by decide
/-- Rule R184: no cycle before a successful load. -/
theorem test_cycle_before_load_refused :
    (match cycle State.reset with
     | .refused r => decide (r = .noRomLoaded)
     | _ => false) = true := by decide

/-- Rule R152's codes. -/
theorem test_report_codes : [Report.noError, .unknownOpcode 0, .stackOverflow, .stackUnderflow, .memRange 0,
    .fontRange 0, .keyRange 0].map reportCode = [0, 1, 2, 3, 4, 5, 6] := by decide

/-! ## Witnesses: for each statement with hypotheses, a state and operands that meet all of them together, and for a
statement of several clauses one for each clause at the boundary of its range -/

/-- Reset with `I` set: the boundary values of the memory checks. -/
def withI (a : Word) : State := State.reset.setI a

/-- Reset with the stack pointer set. -/
def withSP (k : Fin 17) : State := { State.reset with sp := k }

/-- StepKeepsInvariant: a state that is not reset, with a byte written, meets the invariant and steps on. -/
theorem witness_stepKeepsInvariant :
    (s8).Inv ∧ step s8 = .next (stateOf (step s8)) := ⟨⟨by decide, Nat.succ_pos _⟩, rfl⟩

/-- StepRunsTheDecodedInstruction, at the last address that can be fetched from. -/
theorem witness_stepRuns :
    (State.reset.setPc 0x0FFE |>.withFetchWord 16 0xA2F0).pc.toNat + 1 < 4096 ∧
    decodeBytes [(State.reset.setPc 0x0FFE |>.withFetchWord 16 0xA2F0).readMem 0x0FFE,
      (State.reset.setPc 0x0FFE |>.withFetchWord 16 0xA2F0).readMem 0x0FFF] = .ok (.ldI 0x2F0, []) := by decide

/-- FetchOutsideMemoryIsReported: the least and the greatest such address. -/
theorem witness_fetchOutside : 4095 ≤ (State.reset.setPc 0x0FFF).pc.toNat ∧
    4095 ≤ (State.reset.setPc 0xFFFF).pc.toNat := by decide

/-- UnrecognisedWordIsReported: reset itself, whose first word is 0x0000. -/
theorem witness_unrecognised : State.reset.pc.toNat + 1 < 4096 ∧
    wordOfBytes (State.reset.readMem 0x200) (State.reset.readMem 0x201) = 0x0000 ∧ unrecognised 0x0000 = true := by
  decide

/-- EncodeOfDecodeIsIdentity. -/
theorem witness_encodeOfDecode : decodeWord 0x812E = .ok (.shl 1 2) := by decide

/-- DecoderRefusesExactlyTheListedWords: both sides of the boundary between the 0x0 and the 0x1 words. -/
theorem witness_decoderRefuses : unrecognised 0x0FFF = true ∧ unrecognised 0x1000 = false := by decide

/-- CallPushesOrReportsOverflow: the sixteenth and the seventeenth call. -/
theorem witness_call : (withSP 15).sp.val < 16 ∧ (withSP 16).sp.val = 16 := by decide

/-- ReturnPopsOrReportsUnderflow: one entry, and none. -/
theorem witness_return : 0 < (withSP 1).sp.val ∧ (withSP 0).sp.val = 0 := by decide

/-- ReturnUndoesCall. -/
theorem witness_returnUndoesCall : (withSP 15).sp.val < 16 := by decide

/-- AddRegisterSumAndCarry, SubtractionsAndStrictFlag, ShiftsAndShiftedOutBit and the shifts' round trip: the largest
register that is not the flag register. -/
theorem witness_notFlagRegister : (14 : Reg) ≠ 15 := by decide

/-- RandomAndMasksAFreshDraw: a bit of the mask that is 0. -/
theorem witness_maskBit : (0x0F : Byte).getLsbD 7 = false := by decide

/-- DrawSpriteInvertsCoveredCells: no bytes at the largest `I`, and bytes that end at the last address; a covered cell,
and one that is not. -/
theorem witness_drawInside : ((0 : Fin 16).val = 0) ∧ (withI 0x0FF1).i.toNat + (15 : Fin 16).val ≤ 4096 ∧
    SpriteCovers (withI 0x0050) 0 0 5 0 0 ∧ ¬ SpriteCovers (withI 0x0050) 0 0 5 4 0 := by
  refine ⟨by decide, by decide, by unfold SpriteCovers; decide, by unfold SpriteCovers; decide⟩

/-- DrawSpriteInvertsCoveredCells: a covered cell that is on. -/
theorem witness_drawCollision : SpriteCovers ((withI 0x0050).toggle 3 4) 0 0 5 3 4 ∧
    ((withI 0x0050).toggle 3 4).cell 3 4 = true := by
  refine ⟨by unfold SpriteCovers; decide, by decide⟩

/-- DrawSpriteOutsideMemoryIsSquashed: the first byte past memory. -/
theorem witness_drawOutside : (1 : Fin 16).val ≠ 0 ∧ 4096 < (withI 0x1000).i.toNat + (1 : Fin 16).val ∧
    4096 < (withI 0x0FF2).i.toNat + (15 : Fin 16).val := by decide

/-- DrawingTwiceRestoresTheFramebuffer. -/
theorem witness_drawTwice : (14 : Reg) ≠ 15 ∧ (13 : Reg) ≠ 15 ∧
    (withI 0x0FF1).i.toNat + (15 : Fin 16).val ≤ 4096 := by decide

/-- KeySkips and FontAddressOrReport: 15 and 16. -/
theorem witness_digit : ((State.reset.setReg 3 15).reg 3).toNat ≤ 15 ∧
    15 < ((State.reset.setReg 3 16).reg 3).toNat := by decide

/-- WaitForKey: only the last slot pressed, and none pressed with the instruction at `pc`. -/
theorem witness_waitForKey :
    (keyDown { State.reset with key := 0x8000 } 15 = true ∧
      ∀ j < 15, keyDown { State.reset with key := 0x8000 } j = false) ∧
    (∀ k < 16, keyDown (State.reset.withFetchWord 16 0xF50A) k = false) ∧
    (State.reset.withFetchWord 16 0xF50A).fetch = .instr (.ldVxK 5) := by decide

/-- TimersTickOnceAtTheEndOfACycle: a step, and a state whose next step ends its cycle, whatever `BATCH_SIZE` is. -/
theorem witness_timersTick : instrStep s8 = .next (stateOf (instrStep s8)) ∧
    ¬ ({ State.reset with stepsDone := Config.batchSizePred }.stepsDone + 1 < Config.batchSize) :=
  ⟨rfl, Nat.lt_irrefl _⟩

/-- StoreBcdWritesThreeDigits: the last place the digits fit, and the first they do not. -/
theorem witness_storeBcd : (withI 4093).mem.wf = true ∧ (withI 4093).i.toNat + 3 ≤ 4096 ∧
    (withI 4094).mem.wf = true ∧ 4096 < (withI 4094).i.toNat + 3 := by decide

/-- StoreRegistersWritesUpToX, LoadRegistersReadsUpToX and LoadAfterStoreRecoversRegisters: all 16 registers ending at
the last address, and one address further. -/
theorem witness_blockTransfer : (withI 4080).mem.wf = true ∧ (withI 4080).i.toNat + (15 : Reg).val ≤ 4095 ∧
    (withI 4081).mem.wf = true ∧ 4095 < (withI 4081).i.toNat + (15 : Reg).val := by decide

/-- LoadAfterStoreRecoversRegisters: a state with the stored memory and other registers. -/
theorem witness_loadAfterStore :
    ((stateOf (exec (.ldIVx 15) (withI 4080))).setReg 3 9).mem = (stateOf (exec (.ldIVx 15) (withI 4080))).mem ∧
    ((stateOf (exec (.ldIVx 15) (withI 4080))).setReg 3 9).i = (stateOf (exec (.ldIVx 15) (withI 4080))).i :=
  ⟨rfl, rfl⟩

/-- StoredWordIsTheWordFetched: the last two bytes of memory. -/
theorem witness_storedWord : ((withI 4094).setPc 4094).mem.wf = true ∧
    ((withI 4094).setPc 4094).i.toNat + (1 : Reg).val ≤ 4095 ∧ (1 : Reg).val = (0 : Reg).val + 1 ∧
    (1 : Reg) ≤ 1 ∧ ((withI 4094).setPc 4094).pc.toNat = ((withI 4094).setPc 4094).i.toNat + (0 : Reg).val := by
  decide

/-- A state in which each piece of state can be changed by an instruction. -/
def busy : State := (((State.reset.setReg 1 7).setI 0x300).toggle 0 0)

/-- OnlyTheNamedInstructionsWriteEachPiece: a next state that differs, for each piece. -/
theorem witness_onlyNamed :
    (∃ t, exec (.ldI 5) busy = .next t ∧ t.i ≠ busy.i) ∧
    (∃ t, exec (.call 5) busy = .next t ∧ t.stk ≠ busy.stk ∧ t.sp ≠ busy.sp) ∧
    (∃ t, exec (.ldIVx 1) busy = .next t ∧ t.mem ≠ busy.mem) ∧
    (∃ t, exec (.ldDTVx 1) busy = .next t ∧ t.dt ≠ busy.dt) ∧
    (∃ t, exec (.ldSTVx 1) busy = .next t ∧ t.st ≠ busy.st) ∧
    (∃ t, exec .cls busy = .next t ∧ t.fb ≠ busy.fb) ∧
    (∃ t, exec (.rnd 1 5) busy = .next t ∧ t.draws ≠ busy.draws) := by
  refine ⟨⟨_, rfl, by decide⟩, ⟨_, rfl, by decide, by decide⟩, ⟨_, rfl, by decide⟩, ⟨_, rfl, by decide⟩,
    ⟨_, rfl, by decide⟩, ⟨_, rfl, by decide⟩, ⟨_, rfl, by decide⟩⟩

/-- OnlyTheFlagInstructionsWriteTheFlagOnTheSide: an add with a carry changes the flag register. -/
theorem witness_onlyFlag : ∃ t, exec (.addReg 1 2) (regs2 1 0xFF 2 1) = .next t ∧ t.reg 15 ≠ (regs2 1 0xFF 2 1).reg 15 :=
  ⟨_, rfl, by decide⟩

/-- AStepThatReportsHasNoOtherEffect and StepsDoNotReadTheReportOrTheHostsCounts: the first step of an empty machine. -/
theorem witness_reports : instrStep State.reset = .next (stateOf (instrStep State.reset)) ∧
    (stateOf (instrStep State.reset)).report.error ≠ .noError := ⟨rfl, by decide⟩

/-- CycleRunsToCompletion, BatchSizeStepsAreOneCycle, RoundIsKeypadWriteCycleAndRead, FramebufferReadPresentsEveryCell and
the first clause of HostActsOnlyBetweenCycles: between cycles, a ROM loaded. -/
theorem witness_boundary : s8Loaded.stepsDone = 0 ∧ s8Loaded.romLoaded = true := by decide

/-- CycleRunsToCompletion: no ROM loaded. -/
theorem witness_noRom : State.reset.stepsDone = 0 ∧ State.reset.romLoaded = false := by decide

/-- CycleRunsToCompletion and HostActsOnlyBetweenCycles: inside a cycle. -/
theorem witness_insideCycle : { s8Loaded with stepsDone := 1 }.stepsDone ≠ 0 := by decide

/-- WaitingCycleOnlyTicksTheTimers. -/
theorem witness_waitingCycle : (s8Loaded.withFetchWord 16 0xFF0A).stepsDone = 0 ∧
    (s8Loaded.withFetchWord 16 0xFF0A).romLoaded = true ∧
    (s8Loaded.withFetchWord 16 0xFF0A).fetch = .instr (.ldVxK 15) ∧
    ∀ k < 16, keyDown (s8Loaded.withFetchWord 16 0xFF0A) k = false := by decide

/-- RomLoadCopiesOrRefuses and RunObservesEveryRound: the longest image that fits, and one byte more. -/
theorem witness_romLoad : State.reset.mem.wf = true ∧ State.reset.stepsDone = 0 ∧ State.reset.cycles = 0 ∧
    State.reset.romLoaded = false ∧
    (List.replicate 3584 (0xFF : Byte)).length ≤ 3584 ∧ 3584 < (List.replicate 3585 (0xFF : Byte)).length := by
  simp only [List.length_replicate]; decide

/-- RomLoadCopiesOrRefuses: a second load, and a load after a cycle. -/
theorem witness_lateLoad : s8Loaded.mem.wf = true ∧ s8Loaded.stepsDone = 0 ∧ s8Loaded.cycles = 0 ∧
    s8Loaded.romLoaded = true ∧ { s8Loaded with cycles := 1 }.cycles ≠ 0 := by decide

/-- HostActsKeepInvariant: before the load and after it. -/
theorem witness_hostActs : State.reset.Inv ∧ s8Loaded.Inv :=
  ⟨⟨by decide, Nat.succ_pos _⟩, ⟨by decide, Nat.succ_pos _⟩⟩

end Sys2Proof.Tests
end

section
/-! PROOFS, 1. What an instruction can write: each answer of `exec` is one of fourteen kinds of effect, each of them one
update of the state (rules R28, R151). Later proofs take an instruction apart by its effect, not by its 34 arms. -/

namespace Sys2Proof.Machine

/-- The instruction names register `x` as its destination (rules R100 to R112, R132, R133, R145). -/
def NamesDest (x : Reg) (i : Instr) : Prop :=
  (∃ y, i = .addReg x y ∨ i = .sub x y ∨ i = .subn x y ∨ i = .shr x y ∨ i = .shl x y ∨ i = .ldReg x y ∨
    i = .or x y ∨ i = .and x y ∨ i = .xor x y) ∨
  (∃ kk, i = .ldImm x kk ∨ i = .addImm x kk ∨ i = .rnd x kk) ∨
  i = .ldVxDT x ∨ i = .ldVxK x ∨ i = .ldVxI x

/-- The instruction is one of the six that write register 15 without naming it (rule R11). -/
def WritesFlag (i : Instr) : Prop :=
  (∃ x y, i = .addReg x y) ∨ (∃ x y, i = .sub x y) ∨ (∃ x y, i = .subn x y) ∨ (∃ x y, i = .shr x y) ∨
    (∃ x y, i = .shl x y) ∨ (∃ x y n, i = .drw x y n)

/-- The effects of instructions on a state, by the pieces of state they write: if `exec i s` answers `t`, then
`Effect i s t` (`effect_of_exec`). -/
inductive Effect : Instr → State → State → Prop where
  /-- A guarded error: nothing but the report is written (rule R151). -/
  | squash {i s} (e : Report) : Effect i s (s.withError e)
  /-- A jump, a skip taken or not, or the rewind of wait-for-key: at most `pc` is written (rules R80, R132). -/
  | flow {i s} (w : Word) : Effect i s (s.setPc w)
  | call {s} (a : Addr) (h : s.sp.val < 16) : Effect (.call a) s ((s.push h).setPc (zextAddr a))
  | ret {s} (h : 0 < s.sp.val) : Effect .ret s (s.pop h)
  | reg {i s x} (b : Byte) (hd : NamesDest x i) : Effect i s (s.setReg x b)
  | flagReg {i s x} (f : Bool) (r : Byte) (hd : NamesDest x i) (hf : WritesFlag i) :
      Effect i s (s.setFlagThenReg (flagOf f) x r)
  | random {s} (x : Reg) (kk : Byte) :
      Effect (.rnd x kk) s { s.setReg x (Config.rnd s.draws &&& kk) with draws := s.draws + 1 }
  | index {i s} (w : Word) (hi : (∃ a, i = .ldI a) ∨ (∃ x, i = .addI x) ∨ (∃ x, i = .ldF x)) :
      Effect i s (s.setI w)
  | delay {s} (x : Reg) : Effect (.ldDTVx x) s (s.setDT (s.reg x))
  | sound {s} (x : Reg) : Effect (.ldSTVx x) s (s.setST (s.reg x))
  | clear {s} : Effect .cls s s.clearFb
  | draw {s x y n} (x0 y0 : Nat) (bytes : List Byte) : Effect (.drw x y n) s (drawCells s (spriteCells x0 y0 bytes))
  /-- A store, made only if all its bytes lie inside memory (rule R41). -/
  | store {i s} (a : Nat) (bs : List Byte) (hi : (∃ x, i = .ldB x) ∨ (∃ x, i = .ldIVx x))
      (hin : a + bs.length ≤ Config.memSize) : Effect i s (s.storeBytes a bs)
  | load {s} (x : Reg) : Effect (.ldVxI x) s (s.loadRegs (ea s 0) x)

/-- A skip writes at most `pc`, taken or not. -/
theorem Effect.skipIf {i : Instr} {s : State} (c : Prop) [Decidable c] : Effect i s (if c then s.skip else s) := by
  split
  · exact .flow (s.pc + 2)
  · exact .flow s.pc

/-- Everything an instruction can answer, by the kind of its effect. -/
theorem effect_of_exec {i : Instr} {s t : State} (h : exec i s = .next t) : Effect i s t := by
  cases i with
  | cls => cases h; exact .clear
  | ret =>
    rw [exec_ret] at h
    split at h
    · cases h; exact .ret _
    · cases h; exact .squash _
  | jp | jpV0 => cases h; exact .flow _
  | call a =>
    rw [exec_call] at h
    split at h
    · cases h; exact .call a _
    · cases h; exact .squash _
  | seImm | sneImm | seReg | sneReg => cases h; exact .skipIf _
  | ldImm | addImm | ldReg | or | and | xor | ldVxDT => cases h; exact .reg _ (by simp [NamesDest])
  | addReg | sub | subn | shr | shl =>
    cases h; exact .flagReg _ _ (by simp [NamesDest]) (by simp [WritesFlag])
  | ldI | addI => cases h; exact .index _ (by simp)
  | rnd x kk => cases h; exact .random x kk
  | drw x y n =>
    rw [exec_drw] at h
    obtain ⟨-, rfl⟩ | ⟨-, -, rfl⟩ := guardGroup_cases h
    · exact .draw _ _ _
    · exact .squash _
  | skp x =>
    rw [exec_skp] at h
    obtain ⟨-, rfl⟩ | ⟨-, rfl⟩ := guardKey_cases h
    · exact .skipIf _
    · exact .squash _
  | sknp x =>
    rw [exec_sknp] at h
    obtain ⟨-, rfl⟩ | ⟨-, rfl⟩ := guardKey_cases h
    · rw [← ite_not]; exact .skipIf _
    · exact .squash _
  | ldVxK x =>
    rw [exec_ldVxK] at h
    split at h
    · cases h; exact .reg _ (by simp [NamesDest])
    · cases h; exact .flow _
  | ldDTVx x => cases h; exact .delay x
  | ldSTVx x => cases h; exact .sound x
  | ldF x =>
    rw [exec_ldF] at h
    split at h
    · cases h; exact .squash _
    · cases h; exact .index _ (by simp)
  | ldB x =>
    rw [exec_ldB] at h
    obtain ⟨hin, rfl⟩ | ⟨-, -, rfl⟩ := guardGroup_cases h
    · exact .store _ _ (by simp) (by simpa [ea] using hin)
    · exact .squash _
  | ldIVx x =>
    rw [exec_ldIVx] at h
    obtain ⟨hin, rfl⟩ | ⟨-, -, rfl⟩ := guardGroup_cases h
    · exact .store _ _ (by simp) (by simpa [ea] using hin)
    · exact .squash _
  | ldVxI x =>
    rw [exec_ldVxI] at h
    obtain ⟨-, rfl⟩ | ⟨-, -, rfl⟩ := guardGroup_cases h
    · exact .load x
    · exact .squash _

/-! The sprite loop's frame, field by field (rule R121). -/

section
variable (s : State) (cells : List (Nat × Nat))

@[simp] theorem drawCells_i : (drawCells s cells).i = s.i := by rw [drawCells_frame]
@[simp] theorem drawCells_sp : (drawCells s cells).sp = s.sp := by rw [drawCells_frame]
@[simp] theorem drawCells_stk : (drawCells s cells).stk = s.stk := by rw [drawCells_frame]
@[simp] theorem drawCells_mem : (drawCells s cells).mem = s.mem := by rw [drawCells_frame]
@[simp] theorem drawCells_dt : (drawCells s cells).dt = s.dt := by rw [drawCells_frame]
@[simp] theorem drawCells_st : (drawCells s cells).st = s.st := by rw [drawCells_frame]
@[simp] theorem drawCells_key : (drawCells s cells).key = s.key := by rw [drawCells_frame]
@[simp] theorem drawCells_stepsDone : (drawCells s cells).stepsDone = s.stepsDone := by rw [drawCells_frame]
@[simp] theorem drawCells_draws : (drawCells s cells).draws = s.draws := by rw [drawCells_frame]

end

/-! What each effect may change: one law for each piece of state. -/

namespace Effect
variable {i : Instr} {s t : State}

theorem i_changed (he : Effect i s t) (hne : t.i ≠ s.i) :
    (∃ a, i = .ldI a) ∨ (∃ x, i = .addI x) ∨ (∃ x, i = .ldF x) := by
  cases he with
  | index _ hi => exact hi
  | _ => exact absurd (by simp) hne

theorem stk_changed (he : Effect i s t) (hne : t.stk ≠ s.stk) : ∃ a, i = .call a := by
  cases he with
  | call a => exact ⟨a, rfl⟩
  | _ => exact absurd (by simp) hne

theorem sp_changed (he : Effect i s t) (hne : t.sp ≠ s.sp) : i = .ret ∨ ∃ a, i = .call a := by
  cases he with
  | ret => exact .inl rfl
  | call a => exact .inr ⟨a, rfl⟩
  | _ => exact absurd (by simp) hne

theorem mem_changed (he : Effect i s t) (hne : t.mem ≠ s.mem) : (∃ x, i = .ldB x) ∨ (∃ x, i = .ldIVx x) := by
  cases he with
  | store _ _ hi => exact hi
  | _ => exact absurd (by simp) hne

theorem dt_changed (he : Effect i s t) (hne : t.dt ≠ s.dt) : ∃ x, i = .ldDTVx x := by
  cases he with
  | delay x => exact ⟨x, rfl⟩
  | _ => exact absurd (by simp) hne

theorem st_changed (he : Effect i s t) (hne : t.st ≠ s.st) : ∃ x, i = .ldSTVx x := by
  cases he with
  | sound x => exact ⟨x, rfl⟩
  | _ => exact absurd (by simp) hne

theorem fb_changed (he : Effect i s t) (hne : t.fb ≠ s.fb) : i = .cls ∨ ∃ x y n, i = .drw x y n := by
  cases he with
  | clear => exact .inl rfl
  | draw => exact .inr ⟨_, _, _, rfl⟩
  | _ => exact absurd (by simp) hne

theorem draws_changed (he : Effect i s t) (hne : t.draws ≠ s.draws) : ∃ x kk, i = .rnd x kk := by
  cases he with
  | random x kk => exact ⟨x, kk, rfl⟩
  | _ => exact absurd (by simp) hne

theorem key_kept (he : Effect i s t) : t.key = s.key := by cases he <;> simp

theorem stepsDone_kept (he : Effect i s t) : t.stepsDone = s.stepsDone := by cases he <;> simp

/-- Memory stays canonical: a store runs only inside memory. -/
theorem mem_wf (he : Effect i s t) (hs : s.mem.wf = true) : t.mem.wf = true := by
  cases he with
  | store a bs _ hin => exact Memory.wf_memWriteList s.mem a bs hs hin
  | _ => simpa using hs

/-- Register 15 changes on the side only to 0 or 1, and only by one of the six (rules R11, R113). -/
theorem flag_changed (he : Effect i s t) (hne : t.reg 15 ≠ s.reg 15) :
    ((t.reg 15 = 0 ∨ t.reg 15 = 1) ∧ WritesFlag i) ∨ NamesDest 15 i := by
  cases he with
  | @reg _ _ x b hd =>
    by_cases hx : x = 15
    · subst hx; exact .inr hd
    · exact absurd (by simp [hx]) hne
  | @flagReg _ _ x f r hd hf =>
    by_cases hx : x = 15
    · subst hx; exact .inr hd
    · refine .inl ⟨?_, hf⟩
      cases f <;> simp [hx, flagOf]
  | random x kk =>
    by_cases hx : x = 15
    · subst hx; exact .inr (by simp [NamesDest])
    · have hreg : (s.setReg x (Config.rnd s.draws &&& kk)).reg 15 = s.reg 15 := by simp [hx]
      exact absurd hreg hne
  | draw x0 y0 bytes =>
    refine .inl ⟨?_, by simp [WritesFlag]⟩
    rw [flag_drawCells s _ (nodup_spriteCells x0 y0 bytes) fun _ => onScreen_spriteCells]
    split
    · exact .inr rfl
    · exact .inl rfl
  | load x =>
    by_cases hx : 15 ≤ x
    · obtain rfl : x = 15 := Fin.le_antisymm (Fin.le_last x) hx
      exact .inr (by simp [NamesDest])
    · exact absurd (by simp [hx]) hne
  | _ => exact absurd (reg_congr (by simp) 15) hne

end Effect

end Sys2Proof.Machine
end

section
/-! PROOFS, 2. The invariant and the frames of instructions: O3, O45, O46. -/

namespace Sys2Proof.Machine

theorem Effect.keeps_inv {i : Instr} {s t : State} (he : Effect i s t) (hs : s.Inv) : t.Inv := by
  obtain ⟨hmem, hcount⟩ := hs
  exact ⟨he.mem_wf hmem, he.stepsDone_kept ▸ hcount⟩

/-- The invariant reads memory and the step count alone, which neither the advance of `pc` nor a report changes. -/
theorem instrStep_keeps_inv {s t : State} (hs : s.Inv) (h : instrStep s = .next t) : t.Inv := by
  have hadv : s.advance.Inv := hs
  obtain ⟨e, -, he⟩ | ⟨i, -, he⟩ := instrStep_cases s
  · rw [he] at h
    cases h
    exact hadv
  · exact (effect_of_exec (he.symm.trans h)).keeps_inv hadv

/-- The end of a step counts it below `BATCH_SIZE`, or starts the count again (rule R187). -/
theorem endStep_keeps_inv {s : State} (hs : s.Inv) : s.endStep.Inv := by
  refine ⟨hs.1, ?_⟩
  by_cases hlast : Config.batchSize ≤ s.stepsDone + 1
  · rw [endStep_last s hlast]
    exact Nat.succ_pos _
  · rw [endStep_mid s (Nat.not_le.mp hlast)]
    exact Nat.not_le.mp hlast

/-- Settles O3: the instruction keeps the invariant because a store runs only inside memory, and the end of the step
keeps the count below `BATCH_SIZE`. -/
theorem stepKeepsInvariant : Obligations.StepKeepsInvariant := by
  intro s t hs h
  obtain ⟨u, hu, rfl⟩ := mapNext_eq_next.mp h
  exact endStep_keeps_inv (instrStep_keeps_inv hs hu)

/-- Settles O45, from the law of each piece of state. -/
theorem onlyTheNamedInstructionsWriteEachPiece : Obligations.OnlyTheNamedInstructionsWriteEachPiece := by
  intro i s t h
  have he := effect_of_exec h
  exact ⟨he.i_changed, he.stk_changed, he.sp_changed, he.mem_changed, he.dt_changed, he.st_changed, he.fb_changed,
    he.draws_changed, he.key_kept⟩

/-- Settles O46, from the law of register 15. -/
theorem onlyTheFlagInstructionsWriteTheFlagOnTheSide : Obligations.OnlyTheFlagInstructionsWriteTheFlagOnTheSide := by
  intro i s t h hne
  exact (effect_of_exec h).flag_changed hne

end Sys2Proof.Machine
end

section
/-! PROOFS, 3. No step reads the report or the host's counts (rules R24, R152, R158, R165): O48. -/

namespace Sys2Proof.Machine

/-- The state with other values in the fields of the model's own that only the end of a step and the host's operations
read (log entries 2, 6, 16). -/
def withHostFields (n c k : Nat) (b : Bool) (s : State) : State :=
  { s with stepsDone := n, cycles := c, keyWrites := k, romLoaded := b }

section
variable (n c k : Nat) (b : Bool) (s : State)

theorem drawCell_withHostFields (p : Nat × Nat) :
    drawCell (withHostFields n c k b s) p = withHostFields n c k b (drawCell s p) := by
  have hcell : (withHostFields n c k b s).cell p.1 p.2 = s.cell p.1 p.2 := rfl
  unfold drawCell
  rw [hcell]
  split <;> rfl

theorem drawCells_withHostFields (cells : List (Nat × Nat)) :
    drawCells (withHostFields n c k b s) cells = withHostFields n c k b (drawCells s cells) :=
  List.foldl_hom (init := s.setReg flagReg 0) (withHostFields n c k b) (drawCell_withHostFields n c k b)

theorem guardGroup_withHostFields {m : Nat} {f g : State → State}
    (hf : f (withHostFields n c k b s) = withHostFields n c k b (g s)) :
    guardGroup (withHostFields n c k b s) m f = mapNext (withHostFields n c k b) (guardGroup s m g) := by
  have hea : ea (withHostFields n c k b s) 0 = ea s 0 := rfl
  unfold guardGroup
  rw [hea]
  cases memRangeError (ea s 0) m with
  | some e => rfl
  | none => exact congrArg _ hf

theorem guardKey_withHostFields {v : Byte} {f g : State → State}
    (hf : f (withHostFields n c k b s) = withHostFields n c k b (g s)) :
    guardKey (withHostFields n c k b s) v f = mapNext (withHostFields n c k b) (guardKey s v g) := by
  unfold guardKey
  split
  · rfl
  · exact congrArg _ hf

/-- An instruction neither reads nor writes the host's fields. -/
theorem exec_withHostFields (i : Instr) :
    exec i (withHostFields n c k b s) = mapNext (withHostFields n c k b) (exec i s) := by
  have hsp : (withHostFields n c k b s).sp = s.sp := rfl
  have hreg (x : Reg) : (withHostFields n c k b s).reg x = s.reg x := rfl
  have hdown (x : Reg) : keyDown (withHostFields n c k b s) ((withHostFields n c k b s).reg x).toNat =
      keyDown s (s.reg x).toNat := rfl
  have hkey : lowestKey (withHostFields n c k b s) = lowestKey s := rfl
  cases i with
  | ret =>
    simp only [exec_ret, hsp]
    split <;> rfl
  | call a =>
    simp only [exec_call, hsp]
    split <;> rfl
  | ldF x =>
    simp only [exec_ldF, hreg]
    split <;> rfl
  | ldVxK x =>
    simp only [exec_ldVxK, hkey]
    split <;> rfl
  | seImm | sneImm | seReg | sneReg =>
    simp only [exec_seImm, exec_sneImm, exec_seReg, exec_sneReg, hreg]
    split <;> rfl
  | skp x =>
    rw [exec_skp, exec_skp]
    refine guardKey_withHostFields n c k b s ?_
    simp only [hdown]
    split <;> rfl
  | sknp x =>
    rw [exec_sknp, exec_sknp]
    refine guardKey_withHostFields n c k b s ?_
    simp only [hdown]
    split <;> rfl
  | drw x y m =>
    rw [exec_drw, exec_drw]
    exact guardGroup_withHostFields n c k b s (drawCells_withHostFields n c k b s _)
  | ldB x =>
    rw [exec_ldB, exec_ldB]
    exact guardGroup_withHostFields n c k b s rfl
  | ldIVx x =>
    rw [exec_ldIVx, exec_ldIVx]
    exact guardGroup_withHostFields n c k b s rfl
  | ldVxI x =>
    rw [exec_ldVxI, exec_ldVxI]
    exact guardGroup_withHostFields n c k b s rfl
  | _ => rfl

/-- The step begins its report afresh, whatever the last one was, and fetches from memory and `pc` alone. -/
theorem instrStep_withHostFields (r : StepReport) :
    instrStep (withHostFields n c k b { s with report := r }) = mapNext (withHostFields n c k b) (instrStep s) := by
  have hfetch : (withHostFields n c k b { s with report := r }).fetch = s.fetch := rfl
  have hadv : (withHostFields n c k b { s with report := r }).advance = withHostFields n c k b s.advance := rfl
  unfold instrStep
  rw [hfetch, hadv]
  cases s.fetch with
  | error e => rfl
  | instr i => exact exec_withHostFields n c k b s.advance i

end

/-- Settles O48, from what an instruction step gives with other values in the host's fields. -/
theorem stepsDoNotReadTheReportOrTheHostsCounts : Obligations.StepsDoNotReadTheReportOrTheHostsCounts := by
  intro s t r n c k b h
  exact (instrStep_withHostFields n c k b s r).trans (congrArg (mapNext (withHostFields n c k b)) h)

end Sys2Proof.Machine
end

section
/-! PROOFS, 4. The state after reset: O1, O2. -/

namespace Sys2Proof.Machine

/-- The font's bytes in the reset contents of memory (rule R18). -/
theorem memBackground_font (k : Nat) : memBackground (Config.fontBase + k) = Config.font.getD k 0 := by
  simp [memBackground]

/-- Outside the font the reset contents are zero (rule R27). -/
theorem memBackground_outside {a : Nat} (h : a < Config.fontBase ∨ Config.fontBase + Config.fontBytes ≤ a) :
    memBackground a = 0 := by
  unfold memBackground
  split
  · exact List.getD_eq_default _ _ (show Config.fontBytes ≤ a - Config.fontBase by omega)
  · rfl

/-- Settles O1, piece by piece; memory holds nothing but its reset contents. -/
theorem resetLeavesTheTableOfReset : Obligations.ResetLeavesTheTableOfReset := by
  refine ⟨fun x => ?_, fun k => ?_, rfl, rfl, rfl, rfl, rfl, fun k _ => ?_, fun i _ => ?_,
    fun k _ => memBackground_font k, fun a _ ha => memBackground_outside ha⟩
  · exact Vector.getElem_replicate x.isLt
  · exact Vector.getElem_replicate k.isLt
  · exact BitVec.getLsbD_zero
  · exact cell_clearFb State.reset _ _

/-- Settles O2: reset lists no memory, and no step of a cycle is made yet. -/
theorem resetMeetsInvariant : Obligations.ResetMeetsInvariant := ⟨rfl, Nat.succ_pos _⟩

end Sys2Proof.Machine
end

section
/-! PROOFS, 5. Memory and fetch: what a store of registers leaves for a fetch, what a fetch in or out of memory runs, and
when the host may act: O44, O5, O6, O54. -/

namespace Sys2Proof.Machine

variable {s : State}

/-! Store-registers, where all its bytes lie inside memory (rule R144). -/

theorem exec_ldIVx_inside {x : Reg} (h : s.i.toNat + x.val ≤ 4095) :
    exec (.ldIVx x) s = .next (s.storeBytes s.i.toNat (regsUpTo s x)) := by
  rw [exec_ldIVx]
  exact guardGroup_inside (.inr (Nat.succ_le_succ h))

/-- The byte at `I + k` of a store of registers is `V[k]`. -/
theorem readMem_storeBytes_regsUpTo {a : Nat} {x k : Reg} (hwf : s.mem.wf = true) (ha : a + x.val ≤ 4095) (hk : k ≤ x) :
    (s.storeBytes a (regsUpTo s x)).readMem (a + k.val) = s.reg k := by
  have hfit : a + (regsUpTo s x).length ≤ Config.memSize := by
    rw [length_regsUpTo]
    exact Nat.succ_le_succ ha
  have hlen : k.val < (regsUpTo s x).length := by
    rw [length_regsUpTo]
    exact Nat.lt_succ_of_le hk
  exact (memRead_memWriteList_inside s.mem a k.val _ hwf hfit hlen).trans (getElem_regsUpTo s x k.val hlen)

/-- Settles O44: the store leaves `pc` alone, and the two bytes at `pc` are the bytes stored of `V[k]` and `V[l]`. -/
theorem storedWordIsTheWordFetched : Obligations.StoredWordIsTheWordFetched := by
  intro s x k l hwf hin hl hlx hpc
  have hkl : k < l := Fin.lt_def.mpr (by omega)
  have hpc' : s.pc.toNat + 1 = s.i.toNat + l.val := by omega
  have hlt : s.pc.toNat + 1 < 4096 := by
    have : l.val ≤ x.val := hlx
    omega
  refine ⟨_, exec_ldIVx_inside hin, fetchError_none hlt, ?_⟩
  rw [State.fetchWord, storeBytes_pc, hpc', hpc, readMem_storeBytes_regsUpTo hwf hin (hkl.le.trans hlx),
    readMem_storeBytes_regsUpTo hwf hin hlx]

/-! The instruction step, by what the fetch gives (rule R186). -/

theorem instrStep_of_fetch_instr {i : Instr} (h : s.fetch = .instr i) : instrStep s = exec i s.advance := by
  rw [instrStep, h]

theorem instrStep_of_fetch_error {e : Report} (h : s.fetch = .error e) : instrStep s = .next (s.advance.withError e) := by
  simp only [instrStep, h, raise]

/-- Two bytes decode as the word they form, high byte first (rule R42). -/
theorem decodeWord_of_decodeBytes {hi lo : Byte} {i : Instr} {rest : List Byte}
    (h : decodeBytes [hi, lo] = .ok (i, rest)) : decodeWord (wordOfBytes hi lo) = .ok i := by
  cases hd : decodeWord (wordOfBytes hi lo) with
  | ok j =>
    obtain ⟨rfl, -⟩ : j = i ∧ [] = rest := by simpa [decodeBytes, hd] using h
    rfl
  | error r => simp [decodeBytes, hd] at h

/-- Settles O5: the fetch gives the instruction that the two bytes decode to. -/
theorem stepRunsTheDecodedInstruction : Obligations.StepRunsTheDecodedInstruction := by
  intro s i hpc hd
  have hfetch : s.fetch = .instr i := fetch_instr hpc (decodeWord_of_decodeBytes hd)
  exact congrArg (mapNext State.endStep) (instrStep_of_fetch_instr hfetch)

/-- Settles O6: such a fetch gives no instruction, so the advanced state is answered with the error in its report. -/
theorem fetchOutsideMemoryIsReported : Obligations.FetchOutsideMemoryIsReported := by
  intro s hpc
  exact instrStep_of_fetch_error (fetch_outside (Nat.succ_le_succ hpc))

/-- Settles O54: each of the host's acts goes through the one guard `whenBetweenCycles`. -/
theorem hostActsOnlyBetweenCycles : Obligations.HostActsOnlyBetweenCycles := by
  intro s k rom
  refine ⟨fun hidle => ⟨hostWriteKeypad_idle k hidle, hostReset_idle hidle⟩, fun hinside => ?_⟩
  have hrefused {α : Type} (act : Host.Outcome α Fault Refusal) :
      whenBetweenCycles s act = .refused .hostInsideCycle := whenBetweenCycles_inside hinside
  exact ⟨hrefused _, hrefused _, hrefused _, hrefused _, hrefused _⟩

end Sys2Proof.Machine
end

section
/-! PROOFS, 6. Decoding and encoding: O8, O9, O10, O11, O7, O12. -/

namespace Sys2Proof

variable {v w : Word}

/-! A row selects the words that hold its match value under its mask (rule R64). -/

theorem rowMatches_iff {r : OpcodeRow} : rowMatches r w = true ↔ w &&& r.mask = r.value := beq_iff_eq

/-- A row asks for no bit that its mask does not test. -/
theorem opRow_value_and_mask (o : Op) : (opRow o).value &&& (opRow o).mask = (opRow o).value := by
  cases o <;> rfl

theorem decodeWord_eq_ok {i : Instr} :
    decodeWord w = .ok i ↔ ∃ o, rowMatches (opRow o) w = true ∧ withOperands w o = i := by
  rw [← select_eq_some]
  unfold decodeWord
  cases select w <;> simp

theorem decodeWord_eq_error {r : Reject} :
    decodeWord w = .error r ↔ (∀ o, rowMatches (opRow o) w = false) ∧ .unknownOpcode w = r := by
  rw [← select_eq_none]
  unfold decodeWord
  cases select w <;> simp

/-! Encoding keeps the bits of the match value that the format's mask tests (rules R61, R64). -/

theorem encNNN_and_F000 (v : Word) (a : Addr) : encNNN v a &&& 0xF000 = v &&& 0xF000 := by
  apply BitVec.eq_of_toNat_eq; rw [toNat_and_F000, toNat_and_F000, toNat_encNNN]; have := a.isLt; omega
theorem encXKK_and_F000 (v : Word) (x : Reg) (kk : Byte) : encXKK v x kk &&& 0xF000 = v &&& 0xF000 := by
  apply BitVec.eq_of_toNat_eq; rw [toNat_and_F000, toNat_and_F000, toNat_encXKK]; have := kk.isLt; omega
theorem encXYN_and_F000 (v : Word) (x y n : Fin 16) : encXYN v x y n &&& 0xF000 = v &&& 0xF000 := by
  apply BitVec.eq_of_toNat_eq; rw [toNat_and_F000, toNat_and_F000, toNat_encXYN]; omega
theorem encXY_and_F00F (v : Word) (x y : Reg) : encXY v x y &&& 0xF00F = v &&& 0xF00F := by
  apply BitVec.eq_of_toNat_eq; rw [toNat_and_F00F, toNat_and_F00F, toNat_encXY]; omega
theorem encX_and_F0FF (v : Word) (x : Reg) : encX v x &&& 0xF0FF = v &&& 0xF0FF := by
  apply BitVec.eq_of_toNat_eq; rw [toNat_and_F0FF, toNat_and_F0FF, toNat_encX]; omega

theorem encode_and_mask (i : Instr) :
    encode i &&& (opRow (opOf i)).mask = (opRow (opOf i)).value &&& (opRow (opOf i)).mask := by
  cases i with
  | cls | ret => rfl
  | jp | call | ldI | jpV0 => exact encNNN_and_F000 _ _
  | seImm | sneImm | ldImm | addImm | rnd => exact encXKK_and_F000 _ _ _
  | drw => exact encXYN_and_F000 _ _ _ _
  | seReg | sneReg | ldReg | or | and | xor | addReg | sub | shr | subn | shl => exact encXY_and_F00F _ _ _
  | skp | sknp | ldVxDT | ldVxK | ldDTVx | ldSTVx | addI | ldF | ldB | ldIVx | ldVxI => exact encX_and_F0FF _ _

theorem rowMatches_encode (i : Instr) : rowMatches (opRow (opOf i)) (encode i) = true :=
  rowMatches_iff.mpr ((encode_and_mask i).trans (opRow_value_and_mask (opOf i)))

/-- An encoded word has the operands it was made from. -/
theorem withOperands_encode (i : Instr) : withOperands (encode i) (opOf i) = i := by
  cases i with
  | cls | ret => rfl
  | jp | call | ldI | jpV0 => simp only [encode, encodeWith, opOf, withOperands, opAddr_encNNN]
  | seImm | sneImm | ldImm | addImm | rnd =>
    simp only [encode, encodeWith, opOf, withOperands, opX_encXKK, opKK_encXKK]
  | drw => simp only [encode, encodeWith, opOf, withOperands, opX_encXYN, opY_encXYN, opN_encXYN]
  | seReg | sneReg | ldReg | or | and | xor | addReg | sub | shr | subn | shl =>
    simp only [encode, encodeWith, opOf, withOperands, opX_encXY, opY_encXY]
  | skp | sknp | ldVxDT | ldVxK | ldDTVx | ldSTVx | addI | ldF | ldB | ldIVx | ldVxI =>
    simp only [encode, encodeWith, opOf, withOperands, opX_encX]

@[simp] theorem decodeWord_encode (i : Instr) : decodeWord (encode i) = .ok i :=
  decodeWord_eq_ok.mpr ⟨opOf i, rowMatches_encode i, withOperands_encode i⟩

/-- Settles O8: the two bytes make the encoded word again, its own row selects it, and its operands are the
instruction's. -/
theorem decodeOfEncodeIsIdentity : Obligations.DecodeOfEncodeIsIdentity := by
  intro i rest
  simp [encodeBytes, decodeBytes]

/-! A word that holds a row's match value is what the row's format makes of it and of the word's operands (rules R61,
R67). -/

theorem encNNN_of_and_F000 (h : w &&& 0xF000 = v) : encNNN v (opAddr w) = w := by
  subst h; apply BitVec.eq_of_toNat_eq; rw [toNat_encNNN, toNat_and_F000, toNat_opAddr]; omega
theorem encXKK_of_and_F000 (h : w &&& 0xF000 = v) : encXKK v (opX w) (opKK w) = w := by
  subst h; apply BitVec.eq_of_toNat_eq; rw [toNat_encXKK, toNat_and_F000, val_opX, toNat_opKK]; omega
theorem encXYN_of_and_F000 (h : w &&& 0xF000 = v) : encXYN v (opX w) (opY w) (opN w) = w := by
  subst h; apply BitVec.eq_of_toNat_eq; rw [toNat_encXYN, toNat_and_F000, val_opX, val_opY, val_opN]; omega
theorem encXY_of_and_F00F (h : w &&& 0xF00F = v) : encXY v (opX w) (opY w) = w := by
  subst h; apply BitVec.eq_of_toNat_eq; rw [toNat_encXY, toNat_and_F00F, val_opX, val_opY]; omega
theorem encX_of_and_F0FF (h : w &&& 0xF0FF = v) : encX v (opX w) = w := by
  subst h; apply BitVec.eq_of_toNat_eq; rw [toNat_encX, toNat_and_F0FF, val_opX]; omega

/-- What a row reads from a word that it selects encodes to that word. -/
theorem encode_withOperands {o : Op} (h : rowMatches (opRow o) w = true) : encode (withOperands w o) = w := by
  rw [rowMatches_iff] at h
  cases o with
  | cls | ret => exact h.symm.trans BitVec.and_allOnes
  | jp | call | ldI | jpV0 => exact encNNN_of_and_F000 h
  | seImm | sneImm | ldImm | addImm | rnd => exact encXKK_of_and_F000 h
  | drw => exact encXYN_of_and_F000 h
  | seReg | sneReg | ldReg | or | and | xor | addReg | sub | shr | subn | shl => exact encXY_of_and_F00F h
  | skp | sknp | ldVxDT | ldVxK | ldDTVx | ldSTVx | addI | ldF | ldB | ldIVx | ldVxI => exact encX_of_and_F0FF h

/-- Settles O9, from the row that selects the word. -/
theorem encodeOfDecodeIsIdentity : Obligations.EncodeOfDecodeIsIdentity := by
  intro w i h
  obtain ⟨o, hrow, rfl⟩ := decodeWord_eq_ok.mp h
  exact encode_withOperands hrow

/-! The words of rule R66 and the rows of rule R64 complement each other: no instruction's word is listed, and a word
outside the list has a row. -/

theorem wordWellFormed_encode (i : Instr) : wordWellFormed (encode i) = true := by
  cases i with
  | cls => exact Laws.WellFormedWord.cls
  | ret => exact Laws.WellFormedWord.ret
  | jp a => exact Laws.WellFormedWord.jp a
  | call a => exact Laws.WellFormedWord.call a
  | seImm x kk => exact Laws.WellFormedWord.seImm x kk
  | sneImm x kk => exact Laws.WellFormedWord.sneImm x kk
  | seReg x y => exact Laws.WellFormedWord.seReg x y
  | ldImm x kk => exact Laws.WellFormedWord.ldImm x kk
  | addImm x kk => exact Laws.WellFormedWord.addImm x kk
  | ldReg x y => exact Laws.WellFormedWord.ldReg x y
  | or x y => exact Laws.WellFormedWord.or x y
  | and x y => exact Laws.WellFormedWord.and x y
  | xor x y => exact Laws.WellFormedWord.xor x y
  | addReg x y => exact Laws.WellFormedWord.addReg x y
  | sub x y => exact Laws.WellFormedWord.sub x y
  | shr x y => exact Laws.WellFormedWord.shr x y
  | subn x y => exact Laws.WellFormedWord.subn x y
  | shl x y => exact Laws.WellFormedWord.shl x y
  | sneReg x y => exact Laws.WellFormedWord.sneReg x y
  | ldI a => exact Laws.WellFormedWord.ldI a
  | jpV0 a => exact Laws.WellFormedWord.jpV0 a
  | rnd x kk => exact Laws.WellFormedWord.rnd x kk
  | drw x y n => exact Laws.WellFormedWord.drw x y n
  | skp x => exact Laws.WellFormedWord.skp x
  | sknp x => exact Laws.WellFormedWord.sknp x
  | ldVxDT x => exact Laws.WellFormedWord.ldVxDT x
  | ldVxK x => exact Laws.WellFormedWord.ldVxK x
  | ldDTVx x => exact Laws.WellFormedWord.ldDTVx x
  | ldSTVx x => exact Laws.WellFormedWord.ldSTVx x
  | addI x => exact Laws.WellFormedWord.addI x
  | ldF x => exact Laws.WellFormedWord.ldF x
  | ldB x => exact Laws.WellFormedWord.ldB x
  | ldIVx x => exact Laws.WellFormedWord.ldIVx x
  | ldVxI x => exact Laws.WellFormedWord.ldVxI x

/-- The leading nibbles all of whose words belong to one row (rule R64). -/
def freeMajors : List Nat := [1, 2, 3, 4, 6, 7, 0xA, 0xB, 0xC, 0xD]

/-- The leading and trailing nibbles of the rows that test these two (rule R64). -/
def nibblePairs : List (Nat × Nat) :=
  [(5, 0), (8, 0), (8, 1), (8, 2), (8, 3), (8, 4), (8, 5), (8, 6), (8, 7), (8, 0xE), (9, 0)]

/-- The leading nibbles and trailing bytes of the rows that test these two (rule R64). -/
def nibbleBytePairs : List (Nat × Nat) :=
  [(0xE, 0x9E), (0xE, 0xA1), (0xF, 0x07), (0xF, 0x0A), (0xF, 0x15), (0xF, 0x18), (0xF, 0x1E), (0xF, 0x29), (0xF, 0x33),
    (0xF, 0x55), (0xF, 0x65)]

theorem exists_row_of_freeMajor :
    ∀ m ∈ freeMajors, ∃ o ∈ allOps, (opRow o).mask = 0xF000 ∧ (opRow o).value.toNat = m * 4096 := by decide

theorem exists_row_of_nibblePair : ∀ p ∈ nibblePairs,
    ∃ o ∈ allOps, (opRow o).mask = 0xF00F ∧ (opRow o).value.toNat = p.1 * 4096 + p.2 := by decide

theorem exists_row_of_nibbleBytePair : ∀ p ∈ nibbleBytePairs,
    ∃ o ∈ allOps, (opRow o).mask = 0xF0FF ∧ (opRow o).value.toNat = p.1 * 4096 + p.2 := by decide

/-- A word that rule R66 does not list is 00E0, 00EE, or has the fields that one of the other rows tests. -/
theorem fields_of_recognised (h : unrecognised w = false) :
    (w = 0x00E0 ∨ w = 0x00EE) ∨ w.toNat / 4096 ∈ freeMajors ∨ (w.toNat / 4096, w.toNat % 16) ∈ nibblePairs ∨
      (w.toNat / 4096, w.toNat % 256) ∈ nibbleBytePairs := by
  simp only [unrecognised, Bool.or_eq_false_iff] at h
  obtain ⟨⟨⟨⟨⟨h0, h5⟩, h8⟩, h9⟩, hE⟩, hF⟩ := h
  have hgroups : ∀ m < 16, m ∈ freeMajors ∨ m = 0 ∨ m = 5 ∨ m = 8 ∨ m = 9 ∨ m = 0xE ∨ m = 0xF := by decide
  obtain hfree | hm | hm | hm | hm | hm | hm := hgroups _ (Nat.div_lt_of_lt_mul w.isLt : w.toNat / 4096 < 16)
  · exact .inr (.inl hfree)
  · have hsmall : w.toNat < 4096 := by omega
    have hw : w ≠ 0x00E0 → w = 0x00EE := by simpa [unusedZero, hsmall] using h0
    exact .inl (Decidable.or_iff_not_imp_left.mpr hw)
  · have hn : w.toNat % 16 = 0 := by simpa [unusedFive, hm] using h5
    exact .inr (.inr (.inl (by rw [hm, hn]; decide)))
  · have hn : [0x8, 0x9, 0xA, 0xB, 0xC, 0xD, 0xF].contains (w.toNat % 16) = false := by
      simpa [unusedEight, hm] using h8
    have hused : ∀ n < 16, [0x8, 0x9, 0xA, 0xB, 0xC, 0xD, 0xF].contains n = false → (8, n) ∈ nibblePairs := by
      decide
    exact .inr (.inr (.inl (hm ▸ hused _ (Nat.mod_lt _ (by decide)) hn)))
  · have hn : w.toNat % 16 = 0 := by simpa [unusedNine, hm] using h9
    exact .inr (.inr (.inl (by rw [hm, hn]; decide)))
  · have hk : w.toNat % 256 ∈ [0x9E, 0xA1] := by
      simpa only [unusedE, hm, decide_true, Bool.true_and, Bool.not_eq_false', List.contains_iff_mem] using hE
    have hused : ∀ k ∈ [0x9E, 0xA1], (0xE, k) ∈ nibbleBytePairs := by decide
    exact .inr (.inr (.inr (hm ▸ hused _ hk)))
  · have hk : w.toNat % 256 ∈ [0x07, 0x0A, 0x15, 0x18, 0x1E, 0x29, 0x33, 0x55, 0x65] := by
      simpa only [unusedF, hm, decide_true, Bool.true_and, Bool.not_eq_false', List.contains_iff_mem] using hF
    have hused : ∀ k ∈ [0x07, 0x0A, 0x15, 0x18, 0x1E, 0x29, 0x33, 0x55, 0x65], (0xF, k) ∈ nibbleBytePairs := by
      decide
    exact .inr (.inr (.inr (hm ▸ hused _ hk)))

theorem exists_row_of_recognised (h : unrecognised w = false) : ∃ o, rowMatches (opRow o) w = true := by
  simp only [rowMatches_iff]
  obtain hzero | hmajor | hnibbles | hbyte := fields_of_recognised h
  · obtain rfl | rfl := hzero
    · exact ⟨.cls, rfl⟩
    · exact ⟨.ret, rfl⟩
  · obtain ⟨o, -, hmask, hvalue⟩ := exists_row_of_freeMajor _ hmajor
    exact ⟨o, BitVec.eq_of_toNat_eq (by rw [hmask, hvalue, toNat_and_F000])⟩
  · obtain ⟨o, -, hmask, hvalue⟩ := exists_row_of_nibblePair _ hnibbles
    exact ⟨o, BitVec.eq_of_toNat_eq (by rw [hmask, hvalue, toNat_and_F00F])⟩
  · obtain ⟨o, -, hmask, hvalue⟩ := exists_row_of_nibbleBytePair _ hbyte
    exact ⟨o, BitVec.eq_of_toNat_eq (by rw [hmask, hvalue, toNat_and_F0FF])⟩

/-- No row selects a word that rule R66 lists: it would be the word of an instruction. -/
theorem rowMatches_of_unrecognised (h : unrecognised w = true) (o : Op) : rowMatches (opRow o) w = false := by
  by_contra hrow
  have hw : encode (withOperands w o) = w := encode_withOperands (Bool.eq_true_of_not_eq_false hrow)
  have hwf : wordWellFormed w = true := hw ▸ wordWellFormed_encode (withOperands w o)
  simp [wordWellFormed, h] at hwf

/-- Settles O10: the listed words have no row, the others have one. -/
theorem decoderRefusesExactlyTheListedWords : Obligations.DecoderRefusesExactlyTheListedWords := by
  intro w
  refine ⟨fun h => decodeWord_eq_error.mpr ⟨rowMatches_of_unrecognised h, rfl⟩, fun h => ?_⟩
  obtain ⟨o, hrow⟩ := exists_row_of_recognised h
  exact ⟨withOperands w o, decodeWord_eq_ok.mpr ⟨o, hrow, rfl⟩⟩

/-! The rows that select a word, as a list (rule R63). -/

theorem allOps_nodup : allOps.Nodup := by decide

/-- The row that selects a word is the only one in the list that does. -/
theorem filter_rowMatches_eq_singleton {o : Op} (h : rowMatches (opRow o) w = true) :
    allOps.filter (fun a => rowMatches (opRow a) w) = [o] := by
  have hown (a : Op) : rowMatches (opRow a) w = (a == o) := by
    rw [Bool.eq_iff_iff, beq_iff_eq]
    exact ⟨fun ha => rowMatches_unique ha h, fun ha => ha ▸ h⟩
  simp only [hown]
  rw [List.filter_beq, List.count_eq_one_of_mem allOps_nodup (mem_allOps o), List.replicate_one]

/-- Settles O11: a decoded word was selected by the row of its instruction, and by no other; a refused one by none. -/
theorem eachWordMatchesAtMostItsOwnRow : Obligations.EachWordMatchesAtMostItsOwnRow := by
  intro w
  rw [opcodeMap, List.filter_map, List.map_map]
  cases hd : decodeWord w with
  | ok i =>
    obtain ⟨o, hrow, rfl⟩ := decodeWord_eq_ok.mp hd
    have hfilter := filter_rowMatches_eq_singleton hrow
    simp [Function.comp_def, hfilter, mnemonic]
  | error r =>
    obtain ⟨hnone, -⟩ := decodeWord_eq_error.mp hd
    simp [hnone]

/-- Settles O7: no row selects the word, so the fetch gives the report and the step answers it. -/
theorem unrecognisedWordIsReported : Obligations.UnrecognisedWordIsReported := by
  rintro s w hpc rfl hw
  have hselect : select s.fetchWord = none := select_eq_none.mpr (rowMatches_of_unrecognised hw)
  exact Machine.instrStep_of_fetch_error (Machine.fetch_unknown hpc hselect)

/-- Settles O12: fifteen words are those of their instructions, and rule R66 lists 0x5121. -/
theorem exampleWordsDecode : Obligations.ExampleWordsDecode :=
  ⟨decodeWord_encode .ret, decodeWord_encode (.jp 0x234), decodeWord_encode (.seImm 3 0x2A),
    decodeWord_encode (.sneReg 1 2), decodeWord_encode (.ldImm 10 0x2F), decodeWord_encode (.sub 1 2),
    decodeWord_encode (.shl 3 0), decodeWord_encode (.rnd 5 0x0F), decodeWord_encode .cls,
    decodeWord_encode (.drw 0 1 5), decodeWord_encode (.skp 2), decodeWord_encode (.ldVxK 5),
    decodeWord_encode (.ldDTVx 4), decodeWord_encode (.ldI 0x2F0), decodeWord_encode (.ldIVx 2),
    decodeWord_eq_error.mpr ⟨rowMatches_of_unrecognised (by decide), rfl⟩⟩

end Sys2Proof
end

section
/-! PROOFS, 7. Control transfer: what the call stack does when it has room or an entry and when it has none, and that no
jump, call, return or skip writes more than `pc` and the stack: O17, O13, O14, O15, O16, O18, O19. -/

namespace Sys2Proof.Machine

variable (s : State)

/-! The frame of control transfer (rule R28). -/

/-- Writing `pc` and the call stack leaves every other piece of state alone. -/
theorem kept_of_pc_and_stack_written (w : Word) (p : Fin 17) (stk : Vector Word 16) :
    let t := { s with pc := w, sp := p, stk := stk }
    RegsKept s t [] ∧ MemKept s t ∧ t.i = s.i ∧ TimersKeysKept s t ∧ FbKept s t ∧ OwnKept s t :=
  ⟨fun _ _ => rfl, fun _ => rfl, rfl, ⟨rfl, rfl, rfl⟩, fun _ _ => rfl, rfl, rfl, rfl, rfl, rfl, rfl⟩

theorem frameRegs_setPc (w : Word) : FrameRegs s (s.setPc w) [] := by
  obtain ⟨hregs, hmem, hi, hrest⟩ := kept_of_pc_and_stack_written s w s.sp s.stk
  exact ⟨hregs, hmem, hi, ⟨rfl, rfl⟩, hrest⟩

/-! The addresses jumped to (rules R82, R84). -/

@[simp] theorem toNat_zextAddr (a : Addr) : (zextAddr a).toNat = a.toNat :=
  BitVec.toNat_setWidth_of_le (by decide)

@[simp] theorem toNat_zextByte (b : Byte) : (zextByte b).toNat = b.toNat :=
  BitVec.toNat_setWidth_of_le (by decide)

/-- The largest sum, 0xFFF + 0xFF, is below 65536, so nothing is truncated. -/
theorem toNat_zextAddr_add_zextByte (a : Addr) (b : Byte) : (zextAddr a + zextByte b).toNat = a.toNat + b.toNat := by
  rw [BitVec.toNat_add, toNat_zextAddr, toNat_zextByte]
  have := a.isLt
  have := b.isLt
  omega

/-! Call and return, by the room on the stack (rules R81, R83, R153, R154). -/

variable {s}

theorem exec_call_of_room (a : Addr) (h : s.sp.val < 16) :
    exec (.call a) s = .next ((s.push h).setPc (zextAddr a)) := by
  rw [exec_call, dif_pos h]

theorem exec_call_of_full (a : Addr) (h : s.sp.val = 16) : exec (.call a) s = .next (s.withError .stackOverflow) := by
  rw [exec_call, dif_neg h.not_lt, raise]

theorem exec_ret_of_entry (h : 0 < s.sp.val) : exec .ret s = .next (s.pop h) := by
  rw [exec_ret, dif_pos h]

theorem exec_ret_of_empty (h : s.sp.val = 0) : exec .ret s = .next (s.withError .stackUnderflow) := by
  rw [exec_ret, dif_neg h.not_gt, raise]

/-- Settles O17: the call pushes the advanced `pc` at `SP` and raises `SP`, and the return reads that entry. -/
theorem returnUndoesCall : Obligations.ReturnUndoesCall := by
  intro s addr h
  have hentry : 0 < ((s.push h).setPc (zextAddr addr)).sp.val := Nat.succ_pos _
  refine ⟨_, _, exec_call_of_room addr h, exec_ret_of_entry hentry, ?_, rfl⟩
  exact Vector.getElem_set_self h

/-- Settles O13: the address is zero-extended, so `pc` is its number. -/
theorem jumpSetsPc : Obligations.JumpSetsPc :=
  fun s addr => ⟨_, exec_jp s addr, toNat_zextAddr addr, frameRegs_setPc s _⟩

/-- Settles O14: the sum of a 12-bit and an 8-bit number fits `pc`. -/
theorem jumpWithOffsetAddsRegisterZero : Obligations.JumpWithOffsetAddsRegisterZero :=
  fun s addr => ⟨_, exec_jpV0 s addr, toNat_zextAddr_add_zextByte addr _, frameRegs_setPc s _⟩

/-- Settles O15: with room the entry at `SP` is written and no other; without, the state is squashed. -/
theorem callPushesOrReportsOverflow : Obligations.CallPushesOrReportsOverflow := by
  intro s addr
  refine ⟨fun hroom => ?_, fun hfull => ⟨_, exec_call_of_full addr hfull, rfl⟩⟩
  have hstk (k : Fin 16) : (s.push hroom).stk[k] = if k.val = s.sp.val then s.pc else s.stk[k] := by
    simp [Vector.getElem_set, eq_comm]
  exact ⟨_, exec_call_of_room addr hroom, toNat_zextAddr addr, rfl, hstk, kept_of_pc_and_stack_written s _ _ _⟩

/-- Settles O16: with an entry `pc` is the one below `SP`; without, the state is squashed. -/
theorem returnPopsOrReportsUnderflow : Obligations.ReturnPopsOrReportsUnderflow := by
  intro s
  refine ⟨fun hentry => ?_, fun hempty => ⟨_, exec_ret_of_empty hempty, rfl⟩⟩
  have hpc (k : Fin 16) (hk : k.val = (s.pop hentry).sp.val) : (s.pop hentry).pc = s.stk[k] := by
    simp [hk]
  exact ⟨_, exec_ret_of_entry hentry, Nat.sub_add_cancel hentry, hpc, rfl, kept_of_pc_and_stack_written s _ _ _⟩

/-! The compare-skips (rules R85 to R88). -/

/-- An instruction that skips under a condition adds 2 to `pc` exactly then, and writes nothing else. -/
theorem skip_answers {i : Instr} {c : Prop} [Decidable c] (h : exec i s = .next (if c then s.skip else s)) :
    ∃ t, exec i s = .next t ∧ FrameRegs s t [] ∧
      t.pc.toNat = if c then (s.pc.toNat + 2) % 65536 else s.pc.toNat := by
  refine ⟨_, h, ?_⟩
  split
  · exact ⟨frameRegs_setPc s (s.pc + 2), BitVec.toNat_add s.pc 2⟩
  · exact ⟨frameRegs_setPc s s.pc, rfl⟩

/-- Settles O18, from the law of a skip under a condition. -/
theorem skipsWithImmediate : Obligations.SkipsWithImmediate := fun s x kk =>
  ⟨skip_answers (exec_seImm s x kk), by simpa only [ite_not] using skip_answers (exec_sneImm s x kk)⟩

/-- Settles O19, from the law of a skip under a condition. -/
theorem skipsBetweenRegisters : Obligations.SkipsBetweenRegisters := fun s x y =>
  ⟨skip_answers (exec_seReg s x y), by simpa only [ite_not] using skip_answers (exec_sneReg s x y)⟩

end Sys2Proof.Machine
end

section
/-! PROOFS, 8. Registers, arithmetic and logic: what an instruction answers that writes one register, or the flag and
then one register, and the numbers behind the results and the flags: O20, O21, O22, O27, O23, O24, O25, O26. -/

namespace Sys2Proof.Machine

variable {s : State}

/-! The frames of the two register updates (rules R10, R113). -/

/-- Writing registers leaves every other piece of state alone. -/
theorem frameRegs_of_regs_written {v : Vector Byte 16} {xs : List Reg} (h : RegsKept s { s with v := v } xs) :
    FrameRegs s { s with v := v } xs :=
  ⟨h, fun _ => rfl, rfl, ⟨rfl, rfl⟩, ⟨rfl, rfl, rfl⟩, fun _ _ => rfl, rfl, rfl, rfl, rfl, rfl, rfl⟩

theorem frameRegs_setReg (s : State) (x : Reg) (b : Byte) : FrameRegs s (s.setReg x b) [x] := by
  refine frameRegs_of_regs_written fun y hy => ?_
  have hne : x ≠ y := Ne.symm (List.ne_of_not_mem_cons hy)
  exact (reg_setReg s x y b).trans (if_neg hne)

theorem frameRegs_setFlagThenReg (s : State) (f : Byte) (x : Reg) (r : Byte) :
    FrameRegs s (s.setFlagThenReg f x r) [x, 15] := by
  refine frameRegs_of_regs_written fun y hy => ?_
  obtain ⟨hx, hflag⟩ : y ≠ x ∧ y ≠ flagReg := by simpa using hy
  exact (reg_setFlagThenReg s f x y r).trans (by rw [if_neg hx.symm, if_neg hflag.symm])

/-! Instructions that write one register and no flag. -/

/-- An instruction that writes register `x` alone answers with the written value in it. -/
theorem setReg_answers {i : Instr} {x : Reg} {b : Byte} (h : exec i s = .next (s.setReg x b)) :
    ∃ t, exec i s = .next t ∧ t.reg x = b ∧ t.pc = s.pc ∧ FrameRegs s t [x] :=
  ⟨_, h, reg_setReg_self s x b, rfl, frameRegs_setReg s x b⟩

/-- The same, for a result given bit by bit. -/
theorem setReg_answers_bits {i : Instr} {x : Reg} {b : Byte} {p : Nat → Bool} (h : exec i s = .next (s.setReg x b))
    (hb : ∀ k < 8, b.getLsbD k = p k) :
    ∃ t, exec i s = .next t ∧ t.pc = s.pc ∧ FrameRegs s t [x] ∧ ∀ k < 8, (t.reg x).getLsbD k = p k := by
  obtain ⟨t, ht, rfl, hpc, hframe⟩ := setReg_answers h
  exact ⟨t, ht, hpc, hframe, hb⟩

/-- Settles O20: load-imm and move write register `x` alone. -/
theorem loadImmediateAndMove : Obligations.LoadImmediateAndMove :=
  fun s x y kk => ⟨setReg_answers (exec_ldImm s x kk), setReg_answers (exec_ldReg s x y)⟩

/-- Settles O21: add-imm writes register `x` alone, and adding bytes is adding modulo 256. -/
theorem addImmediateWrapsWithoutFlag : Obligations.AddImmediateWrapsWithoutFlag := by
  intro s x kk
  obtain ⟨t, ht, hreg, hframe⟩ := setReg_answers (exec_addImm s x kk)
  exact ⟨t, ht, hreg ▸ BitVec.toNat_add _ _, hframe⟩

/-- Settles O22: each of the three writes register `x` alone, and the operations on bytes act bit by bit. -/
theorem bitwiseOperations : Obligations.BitwiseOperations := fun s x y =>
  ⟨setReg_answers_bits (exec_or s x y) fun _ _ => BitVec.getLsbD_or,
    setReg_answers_bits (exec_and s x y) fun _ _ => BitVec.getLsbD_and,
    setReg_answers_bits (exec_xor s x y) fun _ _ => BitVec.getLsbD_xor⟩

/-- Settles O27: but for the index of the next draw, random-and writes register `x` alone. -/
theorem randomAndMasksAFreshDraw : Obligations.RandomAndMasksAFreshDraw := by
  intro s x kk
  have hreg := reg_setReg_self s x (Config.rnd s.draws &&& kk)
  have hmask (k : Nat) (hk : kk.getLsbD k = false) : (Config.rnd s.draws &&& kk).getLsbD k = false := by
    rw [BitVec.getLsbD_and, hk, Bool.and_false]
  exact ⟨_, exec_rnd s x kk, hreg, fun k _ hk => (congrArg (·.getLsbD k) hreg).trans (hmask k hk), rfl, rfl,
    frameRegs_setReg s x _⟩

/-! The numbers behind the flags (rule R11) and behind the wrapping difference. -/

theorem toNat_flagOf (b : Bool) : (flagOf b).toNat = b.toNat := by cases b <;> rfl

theorem toNat_flagOf_decide (p : Prop) [Decidable p] : (flagOf (decide p)).toNat = if p then 1 else 0 := by
  rw [toNat_flagOf]
  split <;> simp [*]

theorem toNat_carryFlag (a b : Byte) : (carryFlag a b).toNat = if a.toNat + b.toNat > 255 then 1 else 0 :=
  toNat_flagOf_decide _

theorem toNat_greaterFlag (a b : Byte) : (greaterFlag a b).toNat = if a.toNat > b.toNat then 1 else 0 :=
  toNat_flagOf_decide _

theorem toNat_lowBitFlag (a : Byte) : (lowBitFlag a).toNat = a.toNat % 2 := by
  rw [lowBitFlag, toNat_flagOf, BitVec.getLsbD, Nat.toNat_testBit, pow_zero, Nat.div_one]

/-- Above bit 7 a byte has no bit, so the quotient by 128 is that bit. -/
theorem toNat_highBitFlag (a : Byte) : (highBitFlag a).toNat = a.toNat / 128 := by
  rw [highBitFlag, toNat_flagOf, BitVec.getLsbD, Nat.toNat_testBit]
  exact Nat.mod_eq_of_lt (Nat.div_lt_of_lt_mul a.isLt)

theorem toNat_sub_mod (a b : Byte) : (a - b).toNat = (a.toNat + 256 - b.toNat) % 256 := by
  have := b.isLt
  rw [BitVec.toNat_sub]
  congr 1
  omega

theorem toNat_shiftRight_one (a : Byte) : (a >>> 1).toNat = a.toNat / 2 := by
  rw [BitVec.toNat_ushiftRight, Nat.shiftRight_one]

theorem toNat_shiftLeft_one (a : Byte) : (a <<< 1).toNat = a.toNat * 2 % 256 := by
  rw [BitVec.toNat_shiftLeft, Nat.shiftLeft_eq, pow_one]

/-! Instructions that write the flag and then the result (rule R113). -/

/-- An instruction that writes the flag and then register `x` answers with the result in `x` also when `x` is 15, and
with the flag in register 15 when it is not. -/
theorem setFlagThenReg_answers {i : Instr} {f r : Byte} {x : Reg} {m n : Nat}
    (h : exec i s = .next (s.setFlagThenReg f x r)) (hr : r.toNat = n) (hf : f.toNat = m) :
    ∃ t, exec i s = .next t ∧ t.pc = s.pc ∧ FrameRegs s t [x, 15] ∧ (t.reg x).toNat = n ∧
      (x ≠ 15 → (t.reg 15).toNat = m) := by
  refine ⟨_, h, rfl, frameRegs_setFlagThenReg s f x r, ?_, fun hx => ?_⟩
  · rw [reg_setFlagThenReg, if_pos rfl, hr]
  · rw [reg_setFlagThenReg, if_neg hx, if_pos rfl, hf]

/-- Settles O23: the result is the sum of the bytes, the flag its carry. -/
theorem addRegisterSumAndCarry : Obligations.AddRegisterSumAndCarry := fun s x y =>
  setFlagThenReg_answers (exec_addReg s x y) (BitVec.toNat_add _ _) (toNat_carryFlag _ _)

/-- Settles O24: the result is the wrapping difference, the flag the strict comparison of the same operands. -/
theorem subtractionsAndStrictFlag : Obligations.SubtractionsAndStrictFlag := fun s x y =>
  ⟨setFlagThenReg_answers (exec_sub s x y) (toNat_sub_mod _ _) (toNat_greaterFlag _ _),
    setFlagThenReg_answers (exec_subn s x y) (toNat_sub_mod _ _) (toNat_greaterFlag _ _)⟩

/-- Settles O25: the result is the half or the double modulo 256, the flag the lowest or the highest bit. -/
theorem shiftsAndShiftedOutBit : Obligations.ShiftsAndShiftedOutBit := fun s x y =>
  ⟨setFlagThenReg_answers (exec_shr s x y) (toNat_shiftRight_one _) (toNat_lowBitFlag _),
    setFlagThenReg_answers (exec_shl s x y) (toNat_shiftLeft_one _) (toNat_highBitFlag _)⟩

/-- Settles O26, from O25 for each of the two shifts: doubling the half loses the remainder by 2, and halving the double
modulo 256 loses the multiple of 128. -/
theorem shiftRoundTripLosesOnlyTheFlaggedBit : Obligations.ShiftRoundTripLosesOnlyTheFlaggedBit := by
  intro s x y z hx
  have hbyte := (s.reg x).isLt
  obtain ⟨⟨t, ht, -, -, hhalf, hlow⟩, ⟨t', ht', -, -, hdouble, hhigh⟩⟩ := shiftsAndShiftedOutBit s x y
  constructor
  · obtain ⟨-, u, hu, -, -, hback, -⟩ := shiftsAndShiftedOutBit t x z
    refine ⟨t, u, ht, hu, ?_⟩
    rw [hback, hhalf, hlow hx]
    omega
  · obtain ⟨⟨u, hu, -, -, hback, -⟩, -⟩ := shiftsAndShiftedOutBit t' x z
    refine ⟨t', u, ht', hu, ?_⟩
    rw [hback, hdouble, hhigh hx]
    omega

end Sys2Proof.Machine
end

section
/-! PROOFS, 9. The framebuffer: the cells a sprite covers as the list that the draw visits, what drawing them leaves,
and that drawing them twice leaves every cell as it was: O30, O28, O29, O31. -/

namespace Sys2Proof.Machine

variable (s : State) (x y : Reg) (n : Nat)

/-- The cells draw-sprite visits: the sprite's `n` bytes are at `I`, its origin is in registers `x` and `y`
(rules R121, R122). -/
def coveredCells : List (Nat × Nat) :=
  spriteCells (originX (s.reg x)) (originY (s.reg y)) (memReadList s.mem (ea s 0) n)

theorem exec_drw_inside (x y : Reg) (n : Fin 16) (h : n.val = 0 ∨ s.i.toNat + n.val ≤ 4096) :
    exec (.drw x y n) s = .next (drawCells s (coveredCells s x y n.val)) :=
  (exec_drw s x y n).trans (guardGroup_inside h)

/-- Settles O30: the guard of the `n` bytes at `I` answers before anything is written. -/
theorem drawSpriteOutsideMemoryIsSquashed : Obligations.DrawSpriteOutsideMemoryIsSquashed :=
  fun s x y n hn hout => ⟨_, (exec_drw s x y n).trans (guardGroup_outside hn hout), rfl⟩

/-! Frames: `pc` and everything else but the registers and the framebuffer (rules R28, R120, R121). -/

/-- Writing registers and the framebuffer leaves every other piece of state alone. -/
theorem kept_of_regs_and_fb_written (v : Vector Byte 16) (fb : Vector (BitVec Config.fbW) Config.fbH) :
    let t := { s with v := v, fb := fb }
    MemKept s t ∧ t.pc = s.pc ∧ t.i = s.i ∧ StackKept s t ∧ TimersKeysKept s t ∧ OwnKept s t :=
  ⟨fun _ => rfl, rfl, rfl, ⟨rfl, rfl⟩, ⟨rfl, rfl, rfl⟩, rfl, rfl, rfl, rfl, rfl, rfl⟩

theorem kept_drawCells (cells : List (Nat × Nat)) :
    let t := drawCells s cells
    RegsKept s t [15] ∧ MemKept s t ∧ t.pc = s.pc ∧ t.i = s.i ∧ StackKept s t ∧ TimersKeysKept s t ∧ OwnKept s t := by
  refine ⟨fun y hy => reg_drawCells_other s cells y (List.ne_of_not_mem_cons hy), ?_⟩
  rw [drawCells_frame]
  exact kept_of_regs_and_fb_written s _ _

/-- Settles O28: no cell is on in the cleared framebuffer, which is all that is written. -/
theorem clearScreenTurnsEveryCellOff : Obligations.ClearScreenTurnsEveryCellOff := by
  intro s
  obtain ⟨hmem, hpc, hrest⟩ := kept_of_regs_and_fb_written s s.v s.clearFb.fb
  exact ⟨_, exec_cls s, fun _ => cell_clearFb s _ _, hpc, fun _ _ => rfl, hmem, hrest⟩

/-! The cells the draw visits are those covered on the screen (rules R121, R122). -/

variable {s x y n}

theorem mem_coveredCells {px py : Nat} :
    (px, py) ∈ coveredCells s x y n ↔ px < Config.fbW ∧ py < Config.fbH ∧ SpriteCovers s x y n px py := by
  simp only [coveredCells, mem_spriteCells, length_memReadList, getElem_memReadList, SpriteCovers, originX, originY]
  constructor
  · rintro ⟨r, hr, hrow, hy, hx, hleft, hright, hbit⟩
    obtain rfl : r = py - (s.reg y).toNat % Config.fbH := by omega
    exact ⟨hx, hy, hleft, hright, by omega, by omega, hbit⟩
  · rintro ⟨hx, hy, hleft, hright, htop, hbottom, hbit⟩
    exact ⟨py - (s.reg y).toNat % Config.fbH, by omega, by omega, hy, hx, hleft, hright, hbit⟩

theorem exists_mem_coveredCells {p : Nat → Nat → Prop} :
    (∃ c ∈ coveredCells s x y n, p c.1 c.2) ↔
      ∃ px < Config.fbW, ∃ py < Config.fbH, SpriteCovers s x y n px py ∧ p px py := by
  constructor
  · rintro ⟨⟨px, py⟩, hc, hp⟩
    obtain ⟨hx, hy, hcov⟩ := mem_coveredCells.mp hc
    exact ⟨px, hx, py, hy, hcov, hp⟩
  · rintro ⟨px, hx, py, hy, hcov, hp⟩
    exact ⟨(px, py), mem_coveredCells.mpr ⟨hx, hy, hcov⟩, hp⟩

theorem cell_drawCells_coveredCells (px py : Nat) :
    (drawCells s (coveredCells s x y n)).cell px py =
      if (px, py) ∈ coveredCells s x y n then !(s.cell px py) else s.cell px py :=
  cell_drawCells s _ (nodup_spriteCells _ _ _) (fun _ => onScreen_spriteCells) px py

theorem flag_drawCells_coveredCells :
    (drawCells s (coveredCells s x y n)).reg 15 =
      if ∃ c ∈ coveredCells s x y n, s.cell c.1 c.2 = true then 1 else 0 :=
  flag_drawCells s _ (nodup_spriteCells _ _ _) fun _ => onScreen_spriteCells

/-- Settles O29: the draw visits exactly the cells covered on the screen, and none twice. -/
theorem drawSpriteInvertsCoveredCells : Obligations.DrawSpriteInvertsCoveredCells := by
  intro s x y n hin
  have hcollision := exists_mem_coveredCells (s := s) (x := x) (y := y) (n := n.val) (p := (s.cell · · = true))
  refine ⟨_, exec_drw_inside s x y n hin, fun px hx py hy => ⟨fun hcov => ?_, fun hcov => ?_⟩, fun hon => ?_,
    fun hoff => ?_, kept_drawCells s _⟩
  · rw [cell_drawCells_coveredCells, if_pos (mem_coveredCells.mpr ⟨hx, hy, hcov⟩)]
  · rw [cell_drawCells_coveredCells, if_neg fun hmem => hcov (mem_coveredCells.mp hmem).2.2]
  · rw [flag_drawCells_coveredCells, if_pos (hcollision.mpr hon)]
  · rw [flag_drawCells_coveredCells, if_neg fun hmem => hoff (hcollision.mp hmem)]

/-! The second draw (rule R123). -/

/-- On the screen, `t` differs from `s` exactly in the cells that meet `c`. -/
def InvertsExactly (c : Nat → Nat → Prop) (s t : State) : Prop :=
  ∀ px < Config.fbW, ∀ py < Config.fbH,
    (c px py → t.cell px py = !(s.cell px py)) ∧ (¬ c px py → t.cell px py = s.cell px py)

section
variable {c : Nat → Nat → Prop} {t u : State}

/-- Off the screen no cell is on in any state. -/
theorem InvertsExactly.twice_restores (hst : InvertsExactly c s t) (htu : InvertsExactly c t u) (px py : Nat) :
    u.cell px py = s.cell px py := by
  by_cases hon : px < Config.fbW ∧ py < Config.fbH
  · obtain ⟨hinv, hkept⟩ := hst px hon.1 py hon.2
    obtain ⟨hinv', hkept'⟩ := htu px hon.1 py hon.2
    by_cases hc : c px py
    · rw [hinv' hc, hinv hc, Bool.not_not]
    · rw [hkept' hc, hkept hc]
  · have hout : Config.fbW ≤ px ∨ Config.fbH ≤ py := by omega
    rw [cell_out u px py hout, cell_out s px py hout]

/-- A cell was turned on exactly if it is on now and was inverted. -/
theorem InvertsExactly.exists_turned_on_iff (hst : InvertsExactly c s t) :
    (∃ px < Config.fbW, ∃ py < Config.fbH, s.cell px py = false ∧ t.cell px py = true) ↔
      ∃ px < Config.fbW, ∃ py < Config.fbH, c px py ∧ t.cell px py = true := by
  refine exists_congr fun px => and_congr_right fun hx => exists_congr fun py => and_congr_right fun hy => ?_
  obtain ⟨hinv, hkept⟩ := hst px hx py hy
  by_cases hc : c px py
  · simp [hc, hinv hc]
  · simp [hc, hkept hc]

/-- What a sprite covers depends on its two registers, memory and `I`. -/
theorem spriteCovers_congr (hx : t.reg x = s.reg x) (hy : t.reg y = s.reg y) (hmem : MemKept s t) (hi : t.i = s.i) :
    SpriteCovers t x y n = SpriteCovers s x y n := by
  funext px py
  simp only [SpriteCovers, hx, hy, hi, hmem _]

end

/-- A flag of 1 under a condition and 0 without it tells the condition. -/
theorem flag_iff {b : Byte} {p : Prop} (hone : p → b = 1) (hzero : ¬ p → b = 0) : (b = 1 ↔ p) ∧ (b = 0 ↔ ¬ p) := by
  by_cases hp : p
  · simp [hone hp, hp]
  · simp [hzero hp, hp]

/-- Settles O31, from O29 for each of the two draws: the first keeps the origin, memory and `I`, so the second inverts
the same cells, and a covered cell is on for it exactly if the first turned it on. -/
theorem drawingTwiceRestoresTheFramebuffer : Obligations.DrawingTwiceRestoresTheFramebuffer := by
  intro s x y n hx hy hin
  obtain ⟨t, ht, hcell, -, -, hregs, hmem, -, hi, -⟩ := drawSpriteInvertsCoveredCells s x y n hin
  obtain ⟨u, hu, hcell', hone, hzero, -⟩ := drawSpriteInvertsCoveredCells t x y n (hi ▸ hin)
  have hcovers : SpriteCovers t x y n.val = SpriteCovers s x y n.val :=
    spriteCovers_congr (hregs x (by simpa using hx)) (hregs y (by simpa using hy)) hmem hi
  rw [hcovers] at hcell' hone hzero
  have hst : InvertsExactly (SpriteCovers s x y n.val) s t := hcell
  refine ⟨t, u, ht, hu, hst.twice_restores hcell', ?_⟩
  rw [hst.exists_turned_on_iff]
  exact flag_iff hone hzero

end Sys2Proof.Machine
end

section
/-! PROOFS, 10. Keypad and timers: a wait-for-key that no key ends is a fixed point of the instruction step but for the
report, so a whole cycle waits there; the key skips and the timer copies: O51, O33, O32, O34. -/

namespace Sys2Proof.Machine

variable {s : State} {x : Reg}

/-! Wait-for-key, by the lowest pressed slot (rule R132). -/

theorem exec_ldVxK_of_pressed {k : Nat} (h : lowestKey s = some k) :
    exec (.ldVxK x) s = .next (s.setReg x (BitVec.ofNat 8 k)) := by
  rw [exec_ldVxK, h]

theorem exec_ldVxK_of_none_pressed (h : ∀ k < 16, keyDown s k = false) : exec (.ldVxK x) s = .next s.rewind := by
  rw [exec_ldVxK, lowestKey_none.mpr h]

/-- The rewind undoes the advance, and only the report stays written. -/
theorem rewind_advance (s : State) :
    s.advance.rewind = { s with report := { error := .noError, fetchedFrom := s.pc } } := by
  have hpc : s.pc + 2 - 2 = s.pc := BitVec.add_sub_cancel s.pc 2
  rw [State.rewind, advance_pc, hpc, State.advance]

/-- The whole step of a wait that no key ends. -/
theorem instrStep_of_waiting (hfetch : s.fetch = .instr (.ldVxK x)) (hkeys : ∀ k < 16, keyDown s k = false) :
    instrStep s = .next { s with report := { error := .noError, fetchedFrom := s.pc } } := by
  rw [instrStep_of_fetch_instr hfetch, exec_ldVxK_of_none_pressed (s := s.advance) hkeys, rewind_advance]

/-- A batch begun in such a wait stays in it: after a step `pc`, memory and the keypad are as before, so the next step
fetches the same wait (rule R136). -/
theorem runBatch_of_waiting (n : Nat) (hfetch : s.fetch = .instr (.ldVxK x)) (hkeys : ∀ k < 16, keyDown s k = false) :
    ∃ r, runBatch n s =
      .next ({ s with report := r }, List.replicate n { error := .noError, fetchedFrom := s.pc }) := by
  induction n generalizing s with
  | zero => exact ⟨s.report, rfl⟩
  | succ n ih =>
    obtain ⟨r, hrest⟩ := ih (s := { s with report := { error := .noError, fetchedFrom := s.pc } }) hfetch hkeys
    refine ⟨r, ?_⟩
    rw [runBatch, instrStep_of_waiting hfetch hkeys, andThen_next, hrest]
    rfl

/-- Settles O51: the batch leaves everything but the report, and the cycle's end ticks the timers and counts. -/
theorem waitingCycleOnlyTicksTheTimers : Obligations.WaitingCycleOnlyTicksTheTimers := by
  intro n s x hidle hloaded hfetch hkeys
  obtain ⟨r, hbatch⟩ := runBatch_of_waiting n hfetch hkeys
  have hcycle : cycleOf n s = .next (endCycle { s with report := r }, List.replicate n ⟨.noError, s.pc⟩) := by
    rw [cycleOf_loaded n hidle hloaded, hbatch, andThen_next]
  refine ⟨_, _, hcycle, List.length_replicate, rfl, fun rep hrep => ?_⟩
  rw [List.eq_of_mem_replicate hrep]

/-- Settles O33: the scan finds the least pressed slot, whose number fits a byte, or finds none and `pc` goes back. -/
theorem waitForKey : Obligations.WaitForKey := by
  intro s x
  refine ⟨fun k hk hdown hleast => ?_, fun hkeys => ⟨?_, fun hfetch => instrStep_of_waiting hfetch hkeys⟩⟩
  · have hlowest : lowestKey s = some k := lowestKey_of_least hk hdown hleast
    obtain ⟨t, ht, hreg, hframe⟩ := setReg_answers (exec_ldVxK_of_pressed (x := x) hlowest)
    have hfits : (BitVec.ofNat 8 k).toNat = k := Nat.mod_eq_of_lt (hk.trans (by decide))
    exact ⟨t, ht, hreg ▸ hfits, hframe⟩
  · have hpc : (s.pc - 2).toNat = (s.pc.toNat + 65534) % 65536 := by
      rw [BitVec.toNat_sub, Nat.add_comm]
      rfl
    exact ⟨_, exec_ldVxK_of_none_pressed hkeys, hpc, frameRegs_setPc s (s.pc - 2)⟩

/-- Settles O32: the guard lets a slot's number through, and then each is a skip under a condition; any other byte it
squashes. -/
theorem keySkips : Obligations.KeySkips := by
  intro s x
  refine ⟨fun hslot => ?_, fun hout => ?_⟩
  · have hskp := (exec_skp s x).trans (guardKey_inside hslot)
    have hsknp := (exec_sknp s x).trans (guardKey_inside hslot)
    rw [← ite_not] at hsknp
    obtain ⟨t, ht, hframe, hpc⟩ := skip_answers hskp
    obtain ⟨u, hu, hframe', hpc'⟩ := skip_answers hsknp
    rw [ite_not] at hpc'
    exact ⟨t, u, ht, hu, hpc, hpc', hframe, hframe'⟩
  · have hskp := (exec_skp s x).trans (guardKey_outside hout)
    have hsknp := (exec_sknp s x).trans (guardKey_outside hout)
    exact ⟨_, _, hskp, hsknp, rfl, rfl⟩

/-- Settles O34: one copy writes register `x` alone; each of the others writes its timer, and with that timer put back
the state is the one before. -/
theorem timerInstructions : Obligations.TimerInstructions := by
  intro s x
  have hsame : FrameRegs s s [] := frameRegs_setPc s s.pc
  exact ⟨setReg_answers (exec_ldVxDT s x), ⟨_, exec_ldDTVx s x, rfl, rfl, hsame⟩,
    ⟨_, exec_ldSTVx s x, rfl, rfl, hsame⟩⟩

end Sys2Proof.Machine
end

section
/-! PROOFS, 11. Address register and memory: what an instruction answers that writes `I` alone, what a guarded store
leaves and when it is squashed, and that a load takes back what a store put: O43, O37, O38, O39, O40, O41, O42. -/

namespace Sys2Proof.Machine

variable {s : State}

/-! Load-registers, where all its bytes lie inside memory (rule R145). -/

theorem exec_ldVxI_inside {x : Reg} (h : s.i.toNat + x.val ≤ 4095) :
    exec (.ldVxI x) s = .next (s.loadRegs s.i.toNat x) :=
  (exec_ldVxI s x).trans (guardGroup_inside (.inr (Nat.succ_le_succ h)))

/-- Settles O43: the load reads at the same `I` from the same memory, so register `k` becomes the byte at `I + k`, which
the store made `V[k]`. -/
theorem loadAfterStoreRecoversRegisters : Obligations.LoadAfterStoreRecoversRegisters := by
  intro s x hwf hin
  refine ⟨_, exec_ldIVx_inside hin, fun u hmem hi => ?_⟩
  rw [storeBytes_i] at hi
  refine ⟨_, exec_ldVxI_inside (hi ▸ hin), fun k hk => ?_⟩
  calc (u.loadRegs u.i.toNat x).reg k
      = u.readMem (u.i.toNat + k.val) := by rw [reg_loadRegs, if_pos hk]
    _ = (s.storeBytes s.i.toNat (regsUpTo s x)).readMem (s.i.toNat + k.val) := by rw [readMem_congr hmem, hi]
    _ = s.reg k := readMem_storeBytes_regsUpTo hwf hin hk

/-! Instructions that write the address register alone (rules R140 to R142). -/

/-- An instruction that writes `I` alone answers with the written value in it, and with `I` put back the state is the
one before. -/
theorem setI_answers {i : Instr} {w : Word} {n : Nat} (h : exec i s = .next (s.setI w)) (hw : w.toNat = n) :
    ∃ t, exec i s = .next t ∧ t.i.toNat = n ∧ t.pc = s.pc ∧ FrameRegs s { t with i := s.i } [] :=
  ⟨_, h, hw, rfl, frameRegs_setPc s s.pc⟩

/-- The largest glyph address, 0x050 + 5 * 255, is below 65536, so nothing is truncated. -/
theorem toNat_glyphAddr (d : Byte) : (glyphAddr d).toNat = 0x050 + 5 * d.toNat := by
  have := d.isLt
  exact Nat.mod_eq_of_lt (by simp only [Config.fontBase]; omega)

/-- Settles O37: the address is zero-extended, so `I` is its number. -/
theorem loadIndexSetsI : Obligations.LoadIndexSetsI :=
  fun s addr => setI_answers (exec_ldI s addr) (toNat_zextAddr addr)

/-- Settles O38: adding words is adding modulo 65536, and the byte is zero-extended. -/
theorem addToIndexWraps : Obligations.AddToIndexWraps := by
  intro s x
  refine setI_answers (exec_addI s x) ?_
  rw [BitVec.toNat_add, toNat_zextByte]

/-- Settles O39: a digit's glyph address is written to `I`; any other byte is squashed. -/
theorem fontAddressOrReport : Obligations.FontAddressOrReport := by
  intro s x
  refine ⟨fun hdigit => ?_, fun hout => ?_⟩
  · have hexec : exec (.ldF x) s = .next (s.setI (glyphAddr (s.reg x))) := by
      rw [exec_ldF, if_neg hdigit.not_gt]
    exact setI_answers hexec (toNat_glyphAddr _)
  · have hexec : exec (.ldF x) s = .next (s.withError (.fontRange (s.reg x))) := by
      rw [exec_ldF, if_pos hout, raise]
    exact ⟨_, hexec, rfl⟩

/-! Guarded accesses to the bytes at `I` (rules R41, R48, R151). -/

/-- An access of `n + 1` bytes that leaves memory is squashed, whatever it would have done. -/
theorem guardGroup_squashes {i : Instr} {n : Nat} {run : State → State} (h : exec i s = guardGroup s (n + 1) run)
    (hout : 4095 < s.i.toNat + n) :
    ∃ t, exec i s = .next t ∧ Squashed s t (.memRange (max s.i.toNat 4096)) :=
  ⟨_, h.trans (guardGroup_outside n.succ_ne_zero (Nat.succ_lt_succ hout)), rfl⟩

/-- A store leaves the bytes outside it and every other piece of state alone. -/
theorem kept_of_bytes_stored (s : State) (a : Nat) (bs : List Byte) :
    let t := s.storeBytes a bs
    MemKeptOutside s t a bs.length ∧ RegsKept s t [] ∧ t.pc = s.pc ∧ t.i = s.i ∧ StackKept s t ∧
      TimersKeysKept s t ∧ FbKept s t ∧ OwnKept s t :=
  ⟨fun b hb => memRead_memWriteList_outside s.mem a b bs hb, fun _ _ => rfl, rfl, rfl, ⟨rfl, rfl⟩, ⟨rfl, rfl, rfl⟩,
    fun _ _ => rfl, rfl, rfl, rfl, rfl, rfl, rfl⟩

/-- The digits of a byte are below 256, so nothing is truncated. -/
theorem toNat_bcdDigits (b : Byte) :
    (bcdDigits b)[0].toNat = b.toNat / 100 ∧ (bcdDigits b)[1].toNat = b.toNat / 10 % 10 ∧
      (bcdDigits b)[2].toNat = b.toNat % 10 := by
  have := b.isLt
  exact ⟨Nat.mod_eq_of_lt (by omega), Nat.mod_eq_of_lt (by omega), Nat.mod_eq_of_lt (by omega)⟩

/-- Settles O40: inside memory the three bytes stored are the digits; otherwise the guard squashes. -/
theorem storeBcdWritesThreeDigits : Obligations.StoreBcdWritesThreeDigits := by
  intro s x hwf
  refine ⟨fun hin => ?_, fun hout => guardGroup_squashes (exec_ldB s x) (Nat.lt_of_succ_lt_succ hout)⟩
  have hexec : exec (.ldB x) s = .next (s.storeBytes s.i.toNat (bcdDigits (s.reg x))) :=
    (exec_ldB s x).trans (guardGroup_inside (.inr hin))
  have hread (k : Nat) (hk : k < 3) :
      (s.storeBytes s.i.toNat (bcdDigits (s.reg x))).readMem (s.i.toNat + k) = (bcdDigits (s.reg x))[k] :=
    memRead_memWriteList_inside s.mem s.i.toNat k (bcdDigits (s.reg x)) hwf hin hk
  obtain ⟨hhundreds, htens, hones⟩ := toNat_bcdDigits (s.reg x)
  refine ⟨_, hexec, ?_, ?_, ?_, kept_of_bytes_stored s s.i.toNat (bcdDigits (s.reg x))⟩
  · exact (congrArg BitVec.toNat (hread 0 (by decide))).trans hhundreds
  · exact (congrArg BitVec.toNat (hread 1 (by decide))).trans htens
  · exact (congrArg BitVec.toNat (hread 2 (by decide))).trans hones

/-- Settles O41: inside memory byte `k` stored is `V[k]`; otherwise the guard squashes. -/
theorem storeRegistersWritesUpToX : Obligations.StoreRegistersWritesUpToX := by
  intro s x hwf
  refine ⟨fun hin => ?_, guardGroup_squashes (exec_ldIVx s x)⟩
  have hkept := kept_of_bytes_stored s s.i.toNat (regsUpTo s x)
  rw [length_regsUpTo] at hkept
  exact ⟨_, exec_ldIVx_inside hin, fun k hk => readMem_storeBytes_regsUpTo hwf hin hk, hkept⟩

/-- Settles O42: inside memory the load writes registers alone; otherwise the guard squashes. -/
theorem loadRegistersReadsUpToX : Obligations.LoadRegistersReadsUpToX := by
  intro s x
  refine ⟨fun hin => ?_, guardGroup_squashes (exec_ldVxI s x)⟩
  obtain ⟨hmem, hpc, hi, hstack, htimers, hown⟩ := kept_of_regs_and_fb_written s (s.loadRegs s.i.toNat x).v s.fb
  exact ⟨_, exec_ldVxI_inside hin, reg_loadRegs s s.i.toNat x, hmem, hpc, hi, hstack, htimers, fun _ _ => rfl, hown⟩

end Sys2Proof.Machine
end

section
/-! PROOFS, 12. Steps, cycle operations and the host's acts: every instruction step answers, one that reports writes
nothing else, and a batch of them is a cycle operation: O47, O36, O35, O49, O50, O53, O55, O57. -/

namespace Sys2Proof.Machine

variable {s t : State}

/-! Every instruction step answers (rule R186). -/

theorem guardGroup_answers (s : State) (n : Nat) (f : State → State) : ∃ t, guardGroup s n f = .next t := by
  by_cases hin : n = 0 ∨ s.i.toNat + n ≤ Config.memSize
  · exact ⟨_, guardGroup_inside hin⟩
  · obtain ⟨hn, hout⟩ := not_or.mp hin
    exact ⟨_, guardGroup_outside hn (Nat.not_le.mp hout)⟩

theorem guardKey_answers (s : State) (k : Byte) (f : State → State) : ∃ t, guardKey s k f = .next t := by
  by_cases hin : k.toNat ≤ 15
  · exact ⟨_, guardKey_inside hin⟩
  · exact ⟨_, guardKey_outside (Nat.not_le.mp hin)⟩

theorem exec_answers (i : Instr) (s : State) : ∃ t, exec i s = .next t := by
  cases i with
  | ret =>
    rw [exec_ret]
    split <;> exact ⟨_, rfl⟩
  | call a =>
    rw [exec_call]
    split <;> exact ⟨_, rfl⟩
  | ldF x =>
    rw [exec_ldF]
    split <;> exact ⟨_, rfl⟩
  | ldVxK x =>
    rw [exec_ldVxK]
    split <;> exact ⟨_, rfl⟩
  | skp | sknp => simp only [exec_skp, exec_sknp, guardKey_answers]
  | drw | ldB | ldIVx | ldVxI => simp only [exec_drw, exec_ldB, exec_ldIVx, exec_ldVxI, guardGroup_answers]
  | _ => exact ⟨_, rfl⟩

theorem instrStep_answers (s : State) : ∃ t, instrStep s = .next t := by
  obtain ⟨e, -, he⟩ | ⟨i, -, hi⟩ := instrStep_cases s
  · exact ⟨_, he⟩
  · rw [hi]
    exact exec_answers i s.advance

/-! What an instruction step leaves of the report and of the host's fields (rules R151, R152, R187). -/

@[simp] theorem drawCells_report (s : State) (cells : List (Nat × Nat)) : (drawCells s cells).report = s.report := by
  rw [drawCells_frame]

/-- An instruction writes the report only in a guarded error, and then nothing else (rule R151). -/
theorem Effect.report_changed {i : Instr} (he : Effect i s t) (hne : t.report ≠ s.report) : ∃ e, t = s.withError e := by
  cases he with
  | squash e => exact ⟨e, rfl⟩
  | _ => exact absurd (by simp) hne

/-- A step whose report is not `None` is the advance and that error, whichever phase raised it (rule R160). -/
theorem instrStep_reports (h : instrStep s = .next t) (herr : t.report.error ≠ .noError) :
    ∃ e, t = s.advance.withError e := by
  obtain ⟨e, -, he⟩ | ⟨i, -, hi⟩ := instrStep_cases s
  · rw [he] at h
    cases h
    exact ⟨e, rfl⟩
  · have hne : t.report ≠ s.advance.report := fun hsame => herr (congrArg StepReport.error hsame)
    exact (effect_of_exec (hi.symm.trans h)).report_changed hne

/-- Settles O47: such a step is the advance, which writes `pc` and the report, and the error in that report. -/
theorem aStepThatReportsHasNoOtherEffect : Obligations.AStepThatReportsHasNoOtherEffect := by
  intro s t h herr
  obtain ⟨e, rfl⟩ := instrStep_reports h herr
  exact ⟨rfl, rfl⟩

/-- A step of a state with its own values in the host's fields is a step of that state, so the answer has them too. -/
theorem instrStep_keeps_hostFields (h : instrStep s = .next t) :
    t = withHostFields s.stepsDone s.cycles s.keyWrites s.romLoaded t := by
  have hstep : instrStep s = mapNext (withHostFields s.stepsDone s.cycles s.keyWrites s.romLoaded) (instrStep s) :=
    instrStep_withHostFields s.stepsDone s.cycles s.keyWrites s.romLoaded s s.report
  rw [h] at hstep
  exact Host.Outcome.next.inj hstep

theorem instrStep_keeps_stepsDone (h : instrStep s = .next t) : t.stepsDone = s.stepsDone := by
  rw [instrStep_keeps_hostFields h]
  rfl

theorem instrStep_keeps_romLoaded (h : instrStep s = .next t) : t.romLoaded = s.romLoaded := by
  rw [instrStep_keeps_hostFields h]
  rfl

/-- A step neither reads nor writes the count of steps (rule R187). -/
theorem instrStep_withStepsDone (k : Nat) (h : instrStep s = .next t) :
    instrStep { s with stepsDone := k } = .next { t with stepsDone := k } := by
  have hother := stepsDoNotReadTheReportOrTheHostsCounts s t s.report k s.cycles s.keyWrites s.romLoaded h
  rw [instrStep_keeps_hostFields h]
  exact hother

/-! The end of a step (rules R163, R167, R187). -/

/-- Settles O36: each timer is ticked by `timerDec`, which floors at 0. -/
theorem timerTickFloorsAtZero : Obligations.TimerTickFloorsAtZero :=
  fun s => ⟨timerDec_toNat s.dt, timerDec_toNat s.st, rfl⟩

/-- Settles O35: the step ends with `endStep`, which only counts below `BATCH_SIZE`, and there ticks, counts the cycle
and lets the host write the keypad. -/
theorem timersTickOnceAtTheEndOfACycle : Obligations.TimersTickOnceAtTheEndOfACycle := by
  intro s t h
  have hstep : step s = .next t.endStep := mapNext_eq_next.mpr ⟨t, h, rfl⟩
  refine ⟨t.endStep, hstep, ?_⟩
  by_cases hmid : t.stepsDone + 1 < Config.batchSize
  · rw [endStep_mid t hmid]
    simp only [if_pos hmid, true_and]
    exact ⟨⟨rfl, rfl⟩, fun _ => rfl, fun _ _ => rfl, trivial⟩
  · rw [endStep_last t (Nat.not_lt.mp hmid)]
    simp only [if_neg hmid]
    exact ⟨timerDec_toNat t.dt, timerDec_toNat t.st, rfl, rfl, rfl, rfl, rfl, rfl, rfl, ⟨rfl, rfl⟩, fun _ => rfl,
      fun _ _ => rfl, rfl, rfl, rfl⟩

/-! A batch of instruction steps (rules R152, R187). -/

theorem runBatch_succ_of_instrStep (n : Nat) (h : instrStep s = .next t) :
    runBatch (n + 1) s = andThen (runBatch n t) fun p => .next (p.1, t.report :: p.2) := by
  rw [runBatch, h, andThen_next]

/-- A batch answers with a report a step, and with whatever every instruction step keeps. -/
theorem runBatch_answers {P : State → Prop} (hkept : ∀ {s t}, P s → instrStep s = .next t → P t) (n : Nat) (hs : P s) :
    ∃ t reports, runBatch n s = .next (t, reports) ∧ reports.length = n ∧ P t := by
  induction n generalizing s with
  | zero => exact ⟨s, [], rfl, rfl, hs⟩
  | succ n ih =>
    obtain ⟨u, hu⟩ := instrStep_answers s
    obtain ⟨t, reports, hrest, hlen, ht⟩ := ih (hkept hs hu)
    refine ⟨t, u.report :: reports, ?_, congrArg (· + 1) hlen, ht⟩
    rw [runBatch_succ_of_instrStep n hu, hrest, andThen_next]

/-- A cycle operation of a loaded machine answers with a report a step, and ends what its batch kept. -/
theorem cycleOf_answers {P : State → Prop} (hkept : ∀ {s t}, P s → instrStep s = .next t → P t) (n : Nat) (hs : P s)
    (hidle : s.stepsDone = 0) (hloaded : s.romLoaded = true) :
    ∃ t reports, runBatch n s = .next (t, reports) ∧ cycleOf n s = .next (endCycle t, reports) ∧
      reports.length = n ∧ P t := by
  obtain ⟨t, reports, hbatch, hlen, ht⟩ := runBatch_answers hkept n hs
  refine ⟨t, reports, hbatch, ?_, hlen, ht⟩
  rw [cycleOf_loaded n hidle hloaded, hbatch, andThen_next]

/-- The machine may begin a cycle operation: none is in progress, and a ROM is loaded (rule R166). -/
def State.ready (s : State) : Prop := s.stepsDone = 0 ∧ s.romLoaded = true

theorem instrStep_keeps_ready (hs : s.ready) (h : instrStep s = .next t) : t.ready :=
  ⟨(instrStep_keeps_stepsDone h).trans hs.1, (instrStep_keeps_romLoaded h).trans hs.2⟩

/-- Settles O49: the batch answers and leaves the machine ready again; the guards give the two refusals. -/
theorem cycleRunsToCompletion : Obligations.CycleRunsToCompletion := by
  intro n s
  refine ⟨fun hidle hloaded => ?_, fun hidle hunloaded => ?_, whenBetweenCycles_inside⟩
  · obtain ⟨t, reports, -, hcycle, hlen, hready⟩ :=
      cycleOf_answers instrStep_keeps_ready n ⟨hidle, hloaded⟩ hidle hloaded
    exact ⟨endCycle t, reports, hcycle, hlen, hready⟩
  · rw [cycleOf, whenBetweenCycles_idle hidle, hunloaded]
    rfl

/-! `BATCH_SIZE` steps of the running machine (rules R163, R187). -/

/-- A step that is not the last of its cycle operation is an instruction step, counted. -/
theorem step_of_mid {k : Nat} (h : instrStep s = .next t) (hmid : k + 1 < Config.batchSize) :
    step { s with stepsDone := k } = .next { t with stepsDone := k + 1 } :=
  mapNext_eq_next.mpr ⟨_, instrStep_withStepsDone k h, (endStep_mid { t with stepsDone := k } hmid).symm⟩

/-- The last step of a cycle operation is an instruction step, the end of the cycle and the host's keypad write. -/
theorem step_of_last {k : Nat} (h : instrStep s = .next t) (hlast : Config.batchSize ≤ k + 1) :
    step { s with stepsDone := k } = .next (keypadInput (endCycle { t with stepsDone := 0 })) :=
  mapNext_eq_next.mpr ⟨_, instrStep_withStepsDone k h, (endStep_last { t with stepsDone := k } hlast).symm⟩

theorem runSteps_succ_of_step (n : Nat) (h : step s = .next t) : runSteps (n + 1) s = runSteps n t := by
  rw [runSteps, h]

/-- The last `n + 1` steps of a cycle operation, begun with the count at `k`: all but the last are only counted, so they
are the steps of a batch, and the last one ends the cycle. -/
theorem runSteps_of_runBatch {n k : Nat} {reports : List StepReport} (h : runBatch (n + 1) s = .next (t, reports))
    (hk : k + (n + 1) = Config.batchSize) :
    runSteps (n + 1) { s with stepsDone := k } = .next (keypadInput (endCycle { t with stepsDone := 0 })) := by
  induction n generalizing s k reports with
  | zero =>
    obtain ⟨u, hu⟩ := instrStep_answers s
    rw [runBatch_succ_of_instrStep 0 hu] at h
    cases h
    exact runSteps_succ_of_step 0 (step_of_last hu hk.ge)
  | succ n ih =>
    obtain ⟨u, hu⟩ := instrStep_answers s
    rw [runBatch_succ_of_instrStep (n + 1) hu] at h
    obtain ⟨⟨v, rest⟩, hrest, hanswer⟩ := andThen_eq_next.mp h
    cases hanswer
    rw [runSteps_succ_of_step (n + 1) (step_of_mid hu (by omega))]
    exact ih hrest (by omega)

/-- Settles O50: a cycle operation is a batch and its end, and the steps of the batch are those of the running machine,
whose count starts at 0. -/
theorem batchSizeStepsAreOneCycle : Obligations.BatchSizeStepsAreOneCycle := by
  intro s hidle hloaded
  obtain ⟨t, reports, hbatch, hcycle, hlen, hidle', -⟩ :=
    cycleOf_answers instrStep_keeps_ready Config.batchSize ⟨hidle, hloaded⟩ hidle hloaded
  have hs : { s with stepsDone := 0 } = s := by rw [← hidle]
  have ht : { t with stepsDone := 0 } = t := by rw [← hidle']
  have hsteps := runSteps_of_runBatch hbatch (Nat.zero_add Config.batchSize)
  rw [hs, ht] at hsteps
  exact ⟨endCycle t, reports, hcycle, hlen, hsteps⟩

/-! The framebuffer read (rules R22, R168). -/

/-- Index `py * FB_W + px` is the cell of column `px`, row `py` (rule R22). -/
theorem fbAt_index {px : Nat} (py : Nat) (hx : px < Config.fbW) : s.fbAt (py * Config.fbW + px) = s.cell px py := by
  have hcol : (py * Config.fbW + px) % Config.fbW = px := by rw [Nat.mul_add_mod', Nat.mod_eq_of_lt hx]
  have hrow : (py * Config.fbW + px) / Config.fbW = py := by
    rw [Nat.mul_comm, Nat.mul_add_div (by decide), Nat.div_eq_of_lt hx, Nat.add_zero]
  rw [State.fbAt, hcol, hrow]

@[simp] theorem length_framebufferCells (s : State) : (framebufferCells s).length = Config.fbCells := by
  simp [framebufferCells]

theorem getElem?_framebufferCells {i : Nat} (hi : i < Config.fbCells) :
    (framebufferCells s)[i]? = some (presentCell (s.fbAt i)) := by
  rw [framebufferCells, List.getElem?_map, List.getElem?_range hi, Option.map_some]

/-- Settles O53: the cells stand at their indices, and each is presented by `presentCell`. -/
theorem framebufferReadPresentsEveryCell : Obligations.FramebufferReadPresentsEveryCell := by
  intro s hidle
  refine ⟨framebufferCells s, hostReadFramebuffer_idle hidle, length_framebufferCells s, fun px hx py hy => ?_⟩
  have hindex : py * Config.fbW + px < Config.fbCells := by
    simp only [Config.fbW, Config.fbH, Config.fbCells] at hx hy ⊢
    omega
  rw [getElem?_framebufferCells hindex, fbAt_index py hx, presentCell]

/-! The host's acts (rules R166, R167, R184, R188). -/

theorem hostLoadRom_fits {rom : List Byte} (hidle : s.stepsDone = 0) (hfirst : s.cycles = 0)
    (hunloaded : s.romLoaded = false) (hfit : rom.length ≤ 3584) :
    hostLoadRom rom s = .next { s.storeBytes Config.romBase rom with romLoaded := true } := by
  have hwf : romWellFormed rom = true := decide_eq_true hfit
  simp [hostLoadRom, whenBetweenCycles_idle hidle, hfirst, hunloaded, hwf]

/-- Settles O55: reset and the keypad write by what they answer, the load because it stores inside memory, and the cycle
because each of its steps keeps the invariant. -/
theorem hostActsKeepInvariant : Obligations.HostActsKeepInvariant := by
  intro s hinv hidle
  obtain ⟨hmem, hcount⟩ := hinv
  refine ⟨⟨_, hostReset_idle hidle, resetMeetsInvariant⟩, fun k => ⟨_, hostWriteKeypad_idle k hidle, hmem, hcount⟩,
    fun rom hfirst hunloaded hfit => ?_, fun hloaded => ?_⟩
  · have hinside : Config.romBase + rom.length ≤ Config.memSize := Nat.add_le_add_left hfit Config.romBase
    exact ⟨_, hostLoadRom_fits hidle hfirst hunloaded hfit,
      Memory.wf_memWriteList s.mem Config.romBase rom hmem hinside, hcount⟩
  · obtain ⟨t, reports, -, hcycle, -, ht⟩ :=
      cycleOf_answers instrStep_keeps_inv Config.batchSize ⟨hmem, hcount⟩ hidle hloaded
    exact ⟨endCycle t, reports, hcycle, ht⟩

theorem optionalKeypadWrite_idle (k : Option (BitVec 16)) (hidle : s.stepsDone = 0) :
    optionalKeypadWrite k s = .next { s with key := k.getD s.key } := by
  cases k with
  | none => rfl
  | some p => exact hostWriteKeypad_idle p hidle

/-- Settles O57: the three acts of the round answer one after another, the cycle leaving the machine between cycles. -/
theorem roundIsKeypadWriteCycleAndRead : Obligations.RoundIsKeypadWriteCycleAndRead := by
  intro s k hidle hloaded
  obtain ⟨hruns, -⟩ := cycleRunsToCompletion Config.batchSize { s with key := k.getD s.key }
  obtain ⟨t, reports, hcycle, -, hidle', -⟩ := hruns hidle hloaded
  have hread := hostReadFramebuffer_idle hidle'
  refine ⟨t, reports, framebufferCells t, hcycle, hread, ?_⟩
  rw [hostRound, optionalKeypadWrite_idle k hidle, andThen_next, cycle, hcycle, andThen_next, hread, andThen_next]

end Sys2Proof.Machine
end

section
/-! PROOFS, 13. The step, the ROM load and whole runs: the load answers by what came before it and by the image's length,
and a run adds a round to a machine that stays ready for the next: O4, O52, O56. -/

namespace Sys2Proof.Machine

variable {s t : State} {rom : List Byte}

/-- Settles O4: the instruction step answers, and the end of the step is applied to its answer. -/
theorem stepAlwaysAnswersNext : Obligations.StepAlwaysAnswersNext := by
  intro s
  obtain ⟨t, ht⟩ := instrStep_answers s
  exact ⟨t.endStep, mapNext_eq_next.mpr ⟨t, ht, rfl⟩⟩

/-! The ROM load, by what came before it and by the image's length (rules R166, R184, R185, R188). -/

theorem hostLoadRom_tooLong (hidle : s.stepsDone = 0) (hfirst : s.cycles = 0) (hunloaded : s.romLoaded = false)
    (hlong : 3584 < rom.length) : hostLoadRom rom s = .refused (.romTooLarge rom.length) := by
  have hwf : romWellFormed rom = false := decide_eq_false (Nat.not_le.mpr hlong)
  simp [hostLoadRom, whenBetweenCycles_idle hidle, hfirst, hunloaded, hwf]

theorem hostLoadRom_second (hidle : s.stepsDone = 0) (hfirst : s.cycles = 0) (hloaded : s.romLoaded = true) :
    hostLoadRom rom s = .refused .romAlreadyLoaded := by
  simp [hostLoadRom, whenBetweenCycles_idle hidle, hfirst, hloaded]

theorem hostLoadRom_late (hidle : s.stepsDone = 0) (hlate : s.cycles ≠ 0) :
    hostLoadRom rom s = .refused .loadAfterStart := by
  simp [hostLoadRom, whenBetweenCycles_idle hidle, hlate]

/-- Settles O52: a ROM that fits is stored inside memory, so it reads back byte by byte; each of the other three loads
meets its own guard. -/
theorem romLoadCopiesOrRefuses : Obligations.RomLoadCopiesOrRefuses := by
  intro s rom hmem hidle
  refine ⟨fun hfirst hunloaded hfit => ?_, hostLoadRom_tooLong hidle, hostLoadRom_second hidle, hostLoadRom_late hidle⟩
  have hinside : Config.romBase + rom.length ≤ Config.memSize := Nat.add_le_add_left hfit Config.romBase
  exact ⟨_, hostLoadRom_fits hidle hfirst hunloaded hfit, rfl,
    fun k hk => memRead_memWriteList_inside s.mem Config.romBase k rom hmem hinside hk,
    fun b hb => memRead_memWriteList_outside s.mem Config.romBase b rom hb⟩

theorem hostLoadRom_makes_ready (hidle : s.stepsDone = 0) (hfirst : s.cycles = 0) (hunloaded : s.romLoaded = false)
    (hfit : rom.length ≤ 3584) : ∃ u, hostLoadRom rom s = .next u ∧ u.ready ∧ u.cycles = 0 :=
  ⟨_, hostLoadRom_fits hidle hfirst hunloaded hfit, ⟨hidle, rfl⟩, hfirst⟩

/-! Rounds (rules R187, R188): each leaves the machine ready for the next one. -/

theorem instrStep_keeps_cycles (h : instrStep s = .next t) : t.cycles = s.cycles := by
  rw [instrStep_keeps_hostFields h]
  rfl

/-- A cycle operation that answers gives `BATCH_SIZE` reports, is counted, and leaves the machine ready again. -/
theorem cycle_leaves_ready {reports : List StepReport} (h : cycle s = .next (t, reports)) :
    reports.length = Config.batchSize ∧ t.ready ∧ t.cycles = s.cycles + 1 := by
  obtain ⟨hidle, hloaded, -⟩ := cycleOf_cases h
  obtain ⟨u, rs, -, hcycle, hlen, hready, hcount⟩ :=
    cycleOf_answers (P := fun u => u.ready ∧ u.cycles = s.cycles)
      (fun hu hstep => ⟨instrStep_keeps_ready hu.1 hstep, (instrStep_keeps_cycles hstep).trans hu.2⟩)
      Config.batchSize ⟨⟨hidle, hloaded⟩, rfl⟩ hidle hloaded
  cases h.symm.trans hcycle
  exact ⟨hlen, hready, congrArg (· + 1) hcount⟩

/-- The observation holds a report for each step of the cycle and every cell of the framebuffer (rules R168, R187). -/
def Observed.complete (o : Observed) : Prop :=
  o.reports.length = Config.batchSize ∧ o.framebuffer.length = Config.fbW * Config.fbH

theorem hostRound_answers (k : Option (BitVec 16)) (hs : s.ready) :
    ∃ t o, hostRound k s = .next (t, o) ∧ o.complete ∧ t.ready ∧ t.cycles = s.cycles + 1 := by
  obtain ⟨t, reports, cells, hcycle, hread, hround⟩ := roundIsKeypadWriteCycleAndRead s k hs.1 hs.2
  obtain ⟨hlen, hready, hcount⟩ := cycle_leaves_ready hcycle
  rw [hostReadFramebuffer_idle hready.1] at hread
  have hcells : cells.length = Config.fbW * Config.fbH := by
    rw [← Host.Outcome.next.inj hread, length_framebufferCells]
  exact ⟨t, _, hround, ⟨hlen, hcells⟩, hready, hcount⟩

theorem hostRounds_answers (ks : List (Option (BitVec 16))) (hs : s.ready) :
    ∃ t obs, hostRounds ks s = .next (t, obs) ∧ obs.length = ks.length ∧ t.ready ∧
      t.cycles = s.cycles + ks.length ∧ ∀ o ∈ obs, o.complete := by
  induction ks generalizing s with
  | nil => exact ⟨s, [], rfl, rfl, hs, rfl, by simp⟩
  | cons k ks ih =>
    obtain ⟨u, o, hround, ho, hu, hone⟩ := hostRound_answers k hs
    obtain ⟨t, obs, hrest, hlen, ht, hcount, hobs⟩ := ih hu
    refine ⟨t, o :: obs, ?_, congrArg (· + 1) hlen, ht, ?_, List.forall_mem_cons.mpr ⟨ho, hobs⟩⟩
    · rw [hostRounds, hround, andThen_next, hrest, andThen_next]
    · rw [hcount, hone, List.length_cons]
      omega

/-- Settles O56: reset leaves no cycle counted and no ROM loaded, so the load makes the machine ready for the rounds, and
the rounds count from 0. -/
theorem runObservesEveryRound : Obligations.RunObservesEveryRound := by
  intro s rom ks hidle hfit
  obtain ⟨u, hload, hready, hfirst⟩ := hostLoadRom_makes_ready
    (s := { State.reset with draws := s.draws, keyWrites := s.keyWrites }) rfl rfl rfl hfit
  obtain ⟨t, obs, hrounds, hlen, ⟨hidle', -⟩, hcount, hobs⟩ := hostRounds_answers ks hready
  refine ⟨t, obs, ?_, hlen, hidle', ?_, hobs⟩
  · rw [hostRun, hostReset_idle hidle, andThen_next, hload, andThen_next, hrounds]
  · rw [hcount, hfirst, Nat.zero_add]

end Sys2Proof.Machine
end
